-- ==== Sys2Proof/Word.lean ====
section
/-! DEFINITION. The word types of the LS-8 core: bytes and the 9-bit program counter. -/

namespace Sys2Proof

/-- A register or memory value: 8 bits, unsigned (00_scope.md R8, R12). -/
abbrev Byte := BitVec 8

/-- The program counter: 9 bits, holding 0..258 (00_scope.md R10, 10_state.md R25). -/
abbrev Pc := BitVec 9

/-- Text, as the host's program file and reports hold it. -/
abbrev Text := List Char

/-- `zext_9` of a byte: a jump target as a program counter value (00_scope.md R12). -/
def Byte.toPc (v : Byte) : Pc := v.setWidth 9

end Sys2Proof
end

