-- ==== Sys2Proof/Syntax.lean ====
section
/-! DEFINITION. The instructions as syntax: one constructor per row of the opcode table (30_encoding.md R83, R84). -/

namespace Sys2Proof

/-- The eight registers (10_state.md R20). A register index 8..255 names none (R86), so no value here stands for one. -/
inductive Reg where
  | r0 | r1 | r2 | r3 | r4 | r5 | r6 | r7
deriving DecidableEq, Repr

/-- SP is another name for R7 (10_state.md R21, 00_scope.md R13). -/
abbrev Reg.sp : Reg := .r7

/-- The instruction set: the base map (R83), then the EXT_ALU map (R84). Operands in encoding order (R88). -/
inductive Instr where
  | hlt
  | ldi (ra : Reg) (imm : Byte)
  | prn (ra : Reg)
  | add (ra rb : Reg)
  | sub (ra rb : Reg)
  | mul (ra rb : Reg)
  | cmp (ra rb : Reg)
  | push (ra : Reg)
  | pop (ra : Reg)
  | call (ra : Reg)
  | ret
  | jmp (ra : Reg)
  | jeq (ra : Reg)
  | jne (ra : Reg)
  | div (ra rb : Reg)
  | and (ra rb : Reg)
  | or (ra rb : Reg)
  | xor (ra rb : Reg)
  | not (ra : Reg)
  | shl (ra rb : Reg)
  | shr (ra rb : Reg)
deriving DecidableEq, Repr

/-- The instructions that exist only with `EXT_ALU = true` (00_scope.md R11, 30_encoding.md R84). -/
def Instr.isExtAlu : Instr → Bool
  | .hlt | .ldi .. | .prn .. | .add .. | .sub .. | .mul .. | .cmp .. => false
  | .push .. | .pop .. | .call .. | .ret | .jmp .. | .jeq .. | .jne .. => false
  | .div .. | .and .. | .or .. | .xor .. | .not .. | .shl .. | .shr .. => true

end Sys2Proof
end

