-- ==== Sys2Proof/WellFormed.lean ====
section
/-! DEFINITION. Which instructions the active map holds (30_encoding.md R89). The types already rule out a register
index above 7 and an immediate above 255; what is left to check is the extension. -/

namespace Sys2Proof

/-- The instruction is in the active map when `EXT_ALU` is `ext` (00_scope.md R11): with `EXT_ALU = false`, DIV, AND, OR,
XOR, NOT, SHL and SHR are ill-formed. -/
def Instr.wellFormed (ext : Bool) (i : Instr) : Bool :=
  !i.isExtAlu || ext

end Sys2Proof
end

