-- ==== Sys2Proof/Decode.lean ====
section
/-! DEFINITION. The opcode tables, the decoder and the encoder (30_encoding.md R80 to R89, R93). -/

namespace Sys2Proof

/-! ## The opcode bytes (R83, R84) -/

abbrev Opcode.hlt  : Byte := 0b00000001#8
abbrev Opcode.ldi  : Byte := 0b10000010#8
abbrev Opcode.prn  : Byte := 0b01000111#8
abbrev Opcode.add  : Byte := 0b10100000#8
abbrev Opcode.sub  : Byte := 0b10100001#8
abbrev Opcode.mul  : Byte := 0b10100010#8
abbrev Opcode.cmp  : Byte := 0b10100111#8
abbrev Opcode.push : Byte := 0b01000101#8
abbrev Opcode.pop  : Byte := 0b01000110#8
abbrev Opcode.call : Byte := 0b01010000#8
abbrev Opcode.ret  : Byte := 0b00010001#8
abbrev Opcode.jmp  : Byte := 0b01010100#8
abbrev Opcode.jeq  : Byte := 0b01010101#8
abbrev Opcode.jne  : Byte := 0b01010110#8
abbrev Opcode.div  : Byte := 0b10100011#8
abbrev Opcode.and  : Byte := 0b10101000#8
abbrev Opcode.or   : Byte := 0b10101010#8
abbrev Opcode.xor  : Byte := 0b10101011#8
abbrev Opcode.not  : Byte := 0b01101001#8
abbrev Opcode.shl  : Byte := 0b10101100#8
abbrev Opcode.shr  : Byte := 0b10101101#8

/-- `AA`, the number of operand bytes: the top two bits of the opcode byte (R81). -/
def operandCount (op : Byte) : Nat := (op.extractLsb' 6 2).toNat

/-- The instruction length in bytes, `1 + op[7:6]` (R85). -/
def lengthOf (op : Byte) : Nat := 1 + operandCount op

/-! ## The opcode maps -/

/-- The operands of an instruction and the instruction they make (R88): formats F0, F1 and F2 of R82, with F2's second
operand a register index or an immediate. -/
inductive Entry where
  | none       (i : Instr)
  | reg        (mk : Reg → Instr)
  | regReg     (mk : Reg → Reg → Instr)
  | regImm     (mk : Reg → Byte → Instr)

/-- One row of an opcode map: its mnemonic, its opcode byte and its operands. -/
structure Row where
  mnemonic : String
  opcode   : Byte
  entry    : Entry

/-- The base opcode map (R83). -/
def baseMap : List Row :=
  [ ⟨"HLT",  Opcode.hlt,  .none .hlt⟩,
    ⟨"LDI",  Opcode.ldi,  .regImm .ldi⟩,
    ⟨"PRN",  Opcode.prn,  .reg .prn⟩,
    ⟨"ADD",  Opcode.add,  .regReg .add⟩,
    ⟨"SUB",  Opcode.sub,  .regReg .sub⟩,
    ⟨"MUL",  Opcode.mul,  .regReg .mul⟩,
    ⟨"CMP",  Opcode.cmp,  .regReg .cmp⟩,
    ⟨"PUSH", Opcode.push, .reg .push⟩,
    ⟨"POP",  Opcode.pop,  .reg .pop⟩,
    ⟨"CALL", Opcode.call, .reg .call⟩,
    ⟨"RET",  Opcode.ret,  .none .ret⟩,
    ⟨"JMP",  Opcode.jmp,  .reg .jmp⟩,
    ⟨"JEQ",  Opcode.jeq,  .reg .jeq⟩,
    ⟨"JNE",  Opcode.jne,  .reg .jne⟩ ]

/-- The EXT_ALU opcode map (R84). -/
def extMap : List Row :=
  [ ⟨"DIV", Opcode.div, .regReg .div⟩,
    ⟨"AND", Opcode.and, .regReg .and⟩,
    ⟨"OR",  Opcode.or,  .regReg .or⟩,
    ⟨"XOR", Opcode.xor, .regReg .xor⟩,
    ⟨"NOT", Opcode.not, .reg .not⟩,
    ⟨"SHL", Opcode.shl, .regReg .shl⟩,
    ⟨"SHR", Opcode.shr, .regReg .shr⟩ ]

/-- The active map: the base map, and the EXT_ALU map when `EXT_ALU = true` (R89, 00_scope.md R11). -/
def activeMap (ext : Bool) : List Row :=
  if ext then baseMap ++ extMap else baseMap

/-- The row whose opcode is the whole byte `op` (R89: never the fields B, C or DDDD). -/
def findRow (op : Byte) : List Row → Option Row
  | [] => none
  | row :: rest => if row.opcode = op then some row else findRow op rest

/-- The active map's operands for the opcode byte `op`, or none: an illegal encoding (R89). -/
def activeEntry (ext : Bool) (op : Byte) : Option Entry :=
  (findRow op (activeMap ext)).map Row.entry

/-! ## Operands -/

/-- A register-index operand byte, used whole: 0..7 name R0..R7, every other value names no register (R86). -/
def Reg.ofByte (b : Byte) : Option Reg :=
  match b.toNat with
  | 0 => some .r0
  | 1 => some .r1
  | 2 => some .r2
  | 3 => some .r3
  | 4 => some .r4
  | 5 => some .r5
  | 6 => some .r6
  | 7 => some .r7
  | _ => none

/-- The register index of a register (R86). -/
def Reg.toByte : Reg → Byte
  | .r0 => 0#8
  | .r1 => 1#8
  | .r2 => 2#8
  | .r3 => 3#8
  | .r4 => 4#8
  | .r5 => 5#8
  | .r6 => 6#8
  | .r7 => 7#8

/-- Why the decoder rejects: R89, or R86. -/
inductive Reject where
  | unknownOpcode (op : Byte)
  | illegalRegister (value : Byte)
deriving DecidableEq, Repr

/-- The operand check of one register index (R86, R93). -/
def regOperand {ε : Type} (reject : Reject → ε) (b : Byte) : Except ε Reg :=
  match Reg.ofByte b with
  | some r => .ok r
  | none => .error (reject (.illegalRegister b))

/-! ## The decoder -/

/-- Decode after the opcode byte, in the order of R90: the opcode against the active map, then the operand bytes in
ascending order, then the register checks, operand a first (R93). `read k` fetches the byte at pc0 + k, and only the
bytes that the instruction uses are read (R92). -/
def decodeOperands {ε : Type} (reject : Reject → ε) (read : Nat → Except ε Byte) (ext : Bool) (op : Byte) :
    Except ε Instr :=
  match activeEntry ext op with
  | none => .error (reject (.unknownOpcode op))
  | some (.none i) => .ok i
  | some (.reg mk) => do
    let b1 ← read 1
    let ra ← regOperand reject b1
    return mk ra
  | some (.regReg mk) => do
    let b1 ← read 1
    let b2 ← read 2
    let ra ← regOperand reject b1
    let rb ← regOperand reject b2
    return mk ra rb
  | some (.regImm mk) => do
    let b1 ← read 1
    let b2 ← read 2
    let ra ← regOperand reject b1
    return mk ra b2

/-- Why decoding a list of bytes fails: a rejected encoding, or no byte at offset `k` of the instruction. -/
inductive DecodeError where
  | rejected (r : Reject)
  | truncated (k : Nat)
deriving DecidableEq, Repr

/-- The byte at offset `k` of a list of bytes. -/
def byteAt (bytes : List Byte) (k : Nat) : Except DecodeError Byte :=
  match bytes[k]? with
  | some b => .ok b
  | none => .error (.truncated k)

/-- Decode the first instruction of a list of bytes: the instruction, and the bytes after it. -/
def decode (ext : Bool) (bytes : List Byte) : Except DecodeError (Instr × List Byte) := do
  let op ← byteAt bytes 0
  let i ← decodeOperands .rejected (byteAt bytes) ext op
  return (i, bytes.drop (lengthOf op))

/-- The low `n` bytes of `w`, the least significant first: the first byte of the instruction is bits 7:0. -/
def bytesOfNat (w : Nat) : Nat → List Byte
  | 0 => []
  | n + 1 => BitVec.ofNat 8 w :: bytesOfNat (w / 256) n

/-- The bytes of a table word: its `nbits` bits, and zeros above them, as three bytes, the longest instruction (R80). -/
def tableBytes (nbits w : Nat) : List Byte :=
  bytesOfNat (w % 2 ^ nbits) 3

/-- The instruction that the decoder reads from a row of the opcode table. The table holds the rows of R83 and of R84, so
it is read with `EXT_ALU = true` (log 4): a base opcode decodes to the same instruction under both values. -/
def decodeTableWord (nbits w : Nat) : Option Instr :=
  match decode true (tableBytes nbits w) with
  | .ok (i, _) => some i
  | .error _ => none

/-! ## The encoder -/

/-- The opcode byte of an instruction (R83, R84). -/
def Instr.opcode : Instr → Byte
  | .hlt => Opcode.hlt
  | .ldi .. => Opcode.ldi
  | .prn .. => Opcode.prn
  | .add .. => Opcode.add
  | .sub .. => Opcode.sub
  | .mul .. => Opcode.mul
  | .cmp .. => Opcode.cmp
  | .push .. => Opcode.push
  | .pop .. => Opcode.pop
  | .call .. => Opcode.call
  | .ret => Opcode.ret
  | .jmp .. => Opcode.jmp
  | .jeq .. => Opcode.jeq
  | .jne .. => Opcode.jne
  | .div .. => Opcode.div
  | .and .. => Opcode.and
  | .or .. => Opcode.or
  | .xor .. => Opcode.xor
  | .not .. => Opcode.not
  | .shl .. => Opcode.shl
  | .shr .. => Opcode.shr

/-- The operand bytes of an instruction, operand a first (R82, R88). -/
def Instr.operandBytes : Instr → List Byte
  | .hlt | .ret => []
  | .ldi ra imm => [ra.toByte, imm]
  | .prn ra | .push ra | .pop ra | .call ra => [ra.toByte]
  | .jmp ra | .jeq ra | .jne ra | .not ra => [ra.toByte]
  | .add ra rb | .sub ra rb | .mul ra rb | .cmp ra rb => [ra.toByte, rb.toByte]
  | .div ra rb | .and ra rb | .or ra rb | .xor ra rb => [ra.toByte, rb.toByte]
  | .shl ra rb | .shr ra rb => [ra.toByte, rb.toByte]

/-- The bytes of an instruction, in ascending address order from pc0 (R80). -/
def encode (i : Instr) : List Byte :=
  i.opcode :: i.operandBytes

end Sys2Proof
end

