-- ==== Sys2Proof/Config.lean ====
section
/-! DEFINITION. The implementation parameters of 00_scope.md R8 to R11: the fixed ones as constants, the open ones as
one record of plain data that the state carries and no step changes (10_state.md R37). The spec leaves no result of an
instruction open, so there is no free value here. -/

namespace Sys2Proof

/-- `MEM_SIZE` (R8). -/
abbrev Config.memSize : Nat := 256

/-- `PC_RESET` (R8, R27). -/
def Config.pcReset : Pc := 0#9

/-- `FL_RESET` (R8, R29). -/
def Config.flReset : Byte := 0x00#8

/-- `SP_INIT` (R9, R24). -/
def Config.spInit : Byte := 0xF4#8

/-- Values for R0..R6: the argument `RESET_GPR` (R10, R24). -/
structure Gprs where
  r0 : Byte
  r1 : Byte
  r2 : Byte
  r3 : Byte
  r4 : Byte
  r5 : Byte
  r6 : Byte
deriving DecidableEq, Repr

/-- What `fault_info` holds after DivideByZero: rb, the register index of the divisor, as the table of causes says
(60_exceptions.md R201), or pc0, the argument of `raise DivideByZero(pc0)` in the pseudocode of DIV (42_alu.md R140,
00_scope.md R14). No ruling decides between the two (log 5). -/
inductive DivideInfo where
  | divisorIndex
  | faultingPc
deriving DecidableEq, Repr

/-- The parameters that the spec leaves to the model: `EXT_ALU` (R11), `RESET_GPR` (R10, R24) and `RESET_MEM` (R10, R32).
`none` is "not supplied": R0..R6, or the memory bytes, then start unwritten. `resetMem` lists the bytes of addresses
0, 1, 2, …; addresses past its end start unwritten. `divideInfo` is the point on which R140 and R201 differ (log 5). -/
structure Config where
  extAlu   : Bool
  resetGpr : Option Gprs
  resetMem : Option (List Byte)
  divideInfo : DivideInfo
deriving DecidableEq, Repr

/-- The configuration of `State.reset`: `EXT_ALU` false, the default (R11). DESIGN CHOICE (log 1, unsafe): `RESET_GPR` is
supplied as zeros. DESIGN CHOICE (log 2, safe): `RESET_MEM` is not supplied. DEDUCED (log 5): `fault_info` after
DivideByZero is that of the table of causes. -/
def Config.standard : Config :=
  { extAlu := false, resetGpr := some ⟨0, 0, 0, 0, 0, 0, 0⟩, resetMem := none, divideInfo := .divisorIndex }

end Sys2Proof
end

