-- ==== Sys2Proof/Machine/State.lean ====
section
/-! DEFINITION. The state of the machine, as plain data, and its reset (10_state.md, 70_reset_and_hazards.md section 1). -/

namespace Sys2Proof.Machine

/-- One value of type `α` for each register: the values of the register file, or its written marks (10_state.md R20, R24).
R7 is SP: one storage (R21). -/
structure Regs (α : Type) where
  r0 : α
  r1 : α
  r2 : α
  r3 : α
  r4 : α
  r5 : α
  r6 : α
  r7 : α
deriving DecidableEq, Repr

/-- The memory: the bytes that have been written, by rising address. A byte is listed exactly when it has its written
mark, and an unlisted byte is unwritten (10_state.md R31, R32). -/
abbrev Memory := List Host.Cell

/-- The canonical form: addresses strictly rising, all of them 0..255 (10_state.md R31). An unlisted address reads as
nothing, so no entry can repeat what it reads as. -/
abbrev Memory.wf (m : Memory) : Prop :=
  m.Pairwise (fun x y => x.1 < y.1) ∧ ∀ c ∈ m, c.1 < 256

/-- The run state (10_state.md R33). -/
inductive RunState where
  | running
  | halted
  | faulted
deriving DecidableEq, Repr

/-- The causes of `fault_cause` (60_exceptions.md R201). -/
inductive FaultCause where
  | none
  | unknownOpcode
  | unsupportedOperation
  | boundsFault
  | illegalRegister
  | divideByZero
  | unwrittenRead
deriving DecidableEq, Repr

/-- What `fault_info` holds (10_state.md R34, 60_exceptions.md R201): each cause's own kind of value, so that a register
index is not mistaken for an address (log 10). -/
inductive FaultInfo where
  | none
  | opcode (op : Byte)
  | select (sel : Byte)
  | address (a : Nat)
  | operand (value : Byte)
  | register (r : Reg)
deriving DecidableEq, Repr

/-- The fault record (10_state.md R34). `opcode` is none when the opcode fetch itself faulted (60_exceptions.md R203). -/
structure FaultRecord where
  cause  : FaultCause
  pc     : Pc
  opcode : Option Byte
  info   : FaultInfo
deriving DecidableEq, Repr

/-- The machine's state (10_state.md R37): the configuration, which no step changes; R0..R7 and their written marks; PC;
FL; the memory with its written marks; the run state with its fault record; the output sequence, oldest byte first. -/
structure State where
  cfg      : Config
  regs     : Regs Byte
  written  : Regs Bool
  pc       : Pc
  fl       : Byte
  mem      : Memory
  runState : RunState
  fault    : FaultRecord
  output   : List Byte
deriving DecidableEq, Repr

/-- Why a step has no next state. The faults of 60_exceptions.md R201 are not here: taking one is a next state (R203). -/
inductive Fault where
  /-- Raised by `step` when the core is Halted: it takes no further step (30_encoding.md R96, 40_system.md R111).
  Safe: nothing follows. -/
  | coreHalted
  /-- Raised by `step` when the core is Faulted: it takes no further step (30_encoding.md R96, 60_exceptions.md R203).
  Safe: nothing follows. -/
  | coreFaulted
deriving DecidableEq, Repr

/-- Why an instruction has no meaning in the model. -/
inductive Refusal where
  /-- Raised by an arm of `exec` that has no meaning yet, with the table's mnemonic. Safe: the run ends. No arm raises it:
  every instruction has its meaning. -/
  | notModelled (mnemonic : String)
deriving DecidableEq, Repr

/-- The cells of consecutive addresses from `a` on, none past 255. -/
def Memory.ofBytesFrom (a : Nat) : List Byte → Memory
  | [] => []
  | b :: bs => if a < Config.memSize then (a, b) :: Memory.ofBytesFrom (a + 1) bs else []

/-- R0..R6 at the values of `RESET_GPR`, or at zeros behind unset marks, and R7 at `SP_INIT` (10_state.md R24). -/
def Regs.atReset : Option Gprs → Regs Byte
  | some g => ⟨g.r0, g.r1, g.r2, g.r3, g.r4, g.r5, g.r6, Config.spInit⟩
  | none => ⟨0, 0, 0, 0, 0, 0, 0, Config.spInit⟩

/-- The written marks after reset: R7 has its mark, and R0..R6 have theirs when `RESET_GPR` is supplied (10_state.md R24). -/
def Regs.marksAtReset (supplied : Bool) : Regs Bool :=
  ⟨supplied, supplied, supplied, supplied, supplied, supplied, supplied, true⟩

/-- The cleared fault record: cause 0 (70_reset_and_hazards.md R230). DESIGN CHOICE (log 9): its other fields are empty. -/
def FaultRecord.clear : FaultRecord :=
  { cause := .none, pc := 0, opcode := Option.none, info := .none }

/-- The machine after power-on and reset under the configuration `cfg`, before an image is loaded
(70_reset_and_hazards.md R230, R231). -/
def State.powerOn (cfg : Config) : State :=
  { cfg      := cfg
    regs     := Regs.atReset cfg.resetGpr
    written  := Regs.marksAtReset cfg.resetGpr.isSome
    pc       := Config.pcReset
    fl       := Config.flReset
    mem      := Memory.ofBytesFrom 0 (cfg.resetMem.getD [])
    runState := .running
    fault    := FaultRecord.clear
    output   := [] }

/-- The machine right after reset, with nothing loaded: the spec's values (R231), and for R0..R6 the zeros of
`Config.standard` (DESIGN CHOICE, log 1, unsafe). -/
def State.reset : State := State.powerOn Config.standard

end Sys2Proof.Machine
end

