-- ==== Sys2Proof/Machine/Ops.lean ====
section
/-! DEFINITION. The named operations on registers, memory and the rest of the state, and taking a fault
(00_scope.md R13, R14; 60_exceptions.md section 1). -/

namespace Sys2Proof.Machine

/-! ## Registers -/

/-- The entry of register `r`. -/
def Regs.get {α : Type} (f : Regs α) : Reg → α
  | .r0 => f.r0
  | .r1 => f.r1
  | .r2 => f.r2
  | .r3 => f.r3
  | .r4 => f.r4
  | .r5 => f.r5
  | .r6 => f.r6
  | .r7 => f.r7

/-- The file with the entry of register `r` replaced. -/
def Regs.set {α : Type} (f : Regs α) (r : Reg) (v : α) : Regs α :=
  match r with
  | .r0 => { f with r0 := v }
  | .r1 => { f with r1 := v }
  | .r2 => { f with r2 := v }
  | .r3 => { f with r3 := v }
  | .r4 => { f with r4 := v }
  | .r5 => { f with r5 := v }
  | .r6 => { f with r6 := v }
  | .r7 => { f with r7 := v }

/-! ## Memory -/

/-- The byte at address `a`, or none when it is unwritten. -/
def Memory.read (a : Nat) : Memory → Option Byte
  | [] => none
  | c :: m => if c.1 = a then some c.2 else Memory.read a m

/-- The memory with `v` at address `a`, in canonical form. -/
def Memory.write (a : Nat) (v : Byte) : Memory → Memory
  | [] => [(a, v)]
  | c :: m =>
    if a < c.1 then (a, v) :: c :: m
    else if a = c.1 then (a, v) :: m
    else c :: Memory.write a v m

/-! ## Faults -/

/-- A fatal condition, with the value that its `fault_info` reports (60_exceptions.md R201). -/
inductive Trap where
  | unknownOpcode (op : Byte)
  | unsupportedOperation (sel : Byte)
  | boundsFault (a : Nat)
  | illegalRegister (value : Byte)
  | divideByZero (rb : Reg)
  | unwrittenReg (r : Reg)
  | unwrittenByte (a : Nat)
deriving DecidableEq, Repr

/-- The `fault_cause` of a fatal condition (R201). -/
def Trap.cause : Trap → FaultCause
  | .unknownOpcode _ => .unknownOpcode
  | .unsupportedOperation _ => .unsupportedOperation
  | .boundsFault _ => .boundsFault
  | .illegalRegister _ => .illegalRegister
  | .divideByZero _ => .divideByZero
  | .unwrittenReg _ => .unwrittenRead
  | .unwrittenByte _ => .unwrittenRead

/-- The `fault_info` of a fatal condition of an instruction at `pc0` (R201). For DivideByZero it is rb or pc0, as the
configuration says (R201 against 42_alu.md R140, log 5). -/
def Trap.info (t : Trap) (d : DivideInfo) (pc0 : Pc) : FaultInfo :=
  match t with
  | .unknownOpcode op => .opcode op
  | .unsupportedOperation sel => .select sel
  | .boundsFault a => .address a
  | .illegalRegister value => .operand value
  | .divideByZero rb =>
    match d with
    | .divisorIndex => .register rb
    | .faultingPc => .address pc0.toNat
  | .unwrittenReg r => .register r
  | .unwrittenByte a => .address a

/-- The numeric code of a cause (R201). -/
def FaultCause.code : FaultCause → Nat
  | .none => 0
  | .unknownOpcode => 1
  | .unsupportedOperation => 2
  | .boundsFault => 3
  | .illegalRegister => 4
  | .divideByZero => 5
  | .unwrittenRead => 6

/-- `fault_info` as a number, where the cause has one (10_state.md R34). -/
def FaultInfo.value : FaultInfo → Option Nat
  | .none => Option.none
  | .opcode op => some op.toNat
  | .select sel => some sel.toNat
  | .address a => some a
  | .operand value => some value.toNat
  | .register r => some r.toByte.toNat

/-- TAKING A FAULT (60_exceptions.md R203): the run state becomes Faulted, the record holds the cause, pc0 (the PC is still
that of the opcode byte), the opcode byte if it was fetched, and the info. Nothing else changes. There is no return from a
fault: only reset leaves Faulted (R207). -/
def State.raise (s : State) (opcode : Option Byte) (t : Trap) : State :=
  { s with
    runState := .faulted
    fault := { cause := t.cause, pc := s.pc, opcode := opcode, info := t.info s.cfg.divideInfo s.pc } }

/-- The end of an instruction whose opcode is `op`, started in `s`: its effects become visible together (30_encoding.md
R95), or it raises one fault and has none of them (R94; 60_exceptions.md R205). -/
def State.complete (s : State) (op : Byte) : Except Trap State → Host.Outcome State Fault Refusal
  | .ok s' => .next s'
  | .error t => .next (s.raise (some op) t)

/-! ## Accesses -/

/-- `x[r]`: a read of an unmarked register raises UnwrittenRead (10_state.md R24, 60_exceptions.md R206). -/
def State.readReg (s : State) (r : Reg) : Except Trap Byte :=
  if s.written.get r then .ok (s.regs.get r) else .error (.unwrittenReg r)

/-- `x[r] <- v`, which also sets the register's written mark (10_state.md R24). -/
def State.writeReg (s : State) (r : Reg) (v : Byte) : State :=
  { s with regs := s.regs.set r v, written := s.written.set r true }

/-- `MemRead(a, 1)` (00_scope.md R14, 20_memory.md R54, 10_state.md R32). -/
def memRead (m : Memory) (a : Nat) : Except Trap Byte :=
  if a < Config.memSize then
    match m.read a with
    | some v => .ok v
    | none => .error (.unwrittenByte a)
  else .error (.boundsFault a)

/-- `MemWrite(a, 1, v)` (00_scope.md R14, 20_memory.md R54). -/
def memWrite (m : Memory) (a : Nat) (v : Byte) : Except Trap Memory :=
  if a < Config.memSize then .ok (m.write a v) else .error (.boundsFault a)

/-- `pc <- target`. -/
def State.setPc (s : State) (target : Pc) : State :=
  { s with pc := target }

/-- `FL <- v`. -/
def State.setFl (s : State) (v : Byte) : State :=
  { s with fl := v }

/-- The state with memory `m`. -/
def State.setMem (s : State) (m : Memory) : State :=
  { s with mem := m }

/-- `Output(v)`: append the byte to the output sequence (00_scope.md R14, 10_state.md R35). -/
def State.emit (s : State) (v : Byte) : State :=
  { s with output := s.output ++ [v] }

/-- `bytes` stored at addresses `a`, `a + 1`, …; a byte past address 255 has no cell. -/
def Memory.place (a : Nat) : List Byte → Memory → Memory
  | [], m => m
  | b :: bs, m => Memory.place (a + 1) bs (if a < Config.memSize then m.write a b else m)

end Sys2Proof.Machine
end

