-- ==== Sys2Proof/Machine/Operands.lean ====
section
/-! DEFINITION. The operand forms that the meanings share (30_encoding.md R88): two source registers, the stack, a
register-held target, and the next PC of an instruction that does not jump (10_state.md R26). The register-index check
itself stands in Decode.lean (`regOperand`), because it comes before execution (R93). -/

namespace Sys2Proof.Machine

/-- The two source registers of a format F2 operation, Rra before Rrb (60_exceptions.md R204). -/
def State.readTwo (s : State) (ra rb : Reg) : Except Trap (Byte × Byte) := do
  let a ← s.readReg ra
  let b ← s.readReg rb
  return (a, b)

/-- `pc <- pc0 + n` in 9 bits, with no wrap to 0 below 258 (10_state.md R25). -/
def State.advance (s : State) (n : Pc) : State :=
  s.setPc (s.pc + n)

/-- Decrement SP modulo 256 (20_memory.md R57). -/
def State.decSp (s : State) : Except Trap State := do
  let sp ← s.readReg .sp
  return s.writeReg .sp (sp - 1)

/-- Increment SP modulo 256, from its value as it stands (20_memory.md R57). -/
def State.incSp (s : State) : Except Trap State := do
  let sp ← s.readReg .sp
  return s.writeReg .sp (sp + 1)

/-- The byte that SP points at, the top of the stack (20_memory.md R57). -/
def State.stackTop (s : State) : Except Trap Byte := do
  let sp ← s.readReg .sp
  memRead s.mem sp.toNat

/-- Write the byte that SP points at. -/
def State.setStackTop (s : State) (v : Byte) : Except Trap State := do
  let sp ← s.readReg .sp
  let m ← memWrite s.mem sp.toNat v
  return s.setMem m

/-- The jump to the value of register `ra` (44_control.md: absolute and register-indirect). -/
def State.jumpTo (s : State) (ra : Reg) : Except Trap State := do
  let t ← s.readReg ra
  return s.setPc t.toPc

end Sys2Proof.Machine
end

