-- ==== Sys2Proof/Machine/Flags.lean ====
section
/-! DEFINITION. The flags register FL: its layout `00000LGE` and the one computation that writes it
(10_state.md R28, R29; 42_alu.md R135). -/

namespace Sys2Proof.Machine

/-- FL with only E set. -/
abbrev flEqual : Byte := 0b00000001#8

/-- FL with only G set. -/
abbrev flGreater : Byte := 0b00000010#8

/-- FL with only L set. -/
abbrev flLess : Byte := 0b00000100#8

/-- `FL.E`, bit 0. -/
def flagE (fl : Byte) : Bool := fl.getLsbD 0

/-- `FL.G`, bit 1. No instruction reads it (R29). -/
def flagG (fl : Byte) : Bool := fl.getLsbD 1

/-- `FL.L`, bit 2. No instruction reads it (R29). -/
def flagL (fl : Byte) : Bool := fl.getLsbD 2

/-- The value CMP gives FL: cleared, then exactly one of E, G and L set, by an unsigned comparison, equality first, then
greater-than, then less-than (R135). -/
def cmpFlags (a b : Byte) : Byte :=
  if a.toNat = b.toNat then 0x00#8 ||| flEqual
  else if a.toNat > b.toNat then 0x00#8 ||| flGreater
  else 0x00#8 ||| flLess

end Sys2Proof.Machine
end

