-- ==== Sys2Proof/Machine/Alu.lean ====
section
/-! DEFINITION. The ALU and its instructions: ADD, SUB, MUL, CMP and the EXT_ALU operations (42_alu.md). -/

namespace Sys2Proof.Machine

/-! ## The ALU as a unit (R130, R136) -/

/-- What the ALU drives: a result for x[ra], or a value for FL. -/
inductive AluOut where
  | result (v : Byte)
  | flags (fl : Byte)
deriving DecidableEq, Repr

/-- The base operations. The operation select is numbered by the opcode byte (DESIGN CHOICE, log 8). -/
def aluBase (sel a b : Byte) : Option AluOut :=
  if sel = Opcode.add then some (.result (a + b))
  else if sel = Opcode.sub then some (.result (a - b))
  else if sel = Opcode.mul then some (.result (a * b))
  else if sel = Opcode.cmp then some (.flags (cmpFlags a b))
  else none

/-- The EXT_ALU operations other than DIV (R141 to R146). The shift count is the whole byte (R145, R146). -/
def aluExt (sel a b : Byte) : Option AluOut :=
  if sel = Opcode.and then some (.result (a &&& b))
  else if sel = Opcode.or then some (.result (a ||| b))
  else if sel = Opcode.xor then some (.result (a ^^^ b))
  else if sel = Opcode.not then some (.result (~~~a))
  else if sel = Opcode.shl then some (.result (a <<< b.toNat))
  else if sel = Opcode.shr then some (.result (a >>> b.toNat))
  else none

/-- Unsigned division, rounded down; DivideByZero when the divisor is 0 (R140). -/
def aluDiv (a : Byte) (rb : Reg) (b : Byte) : Except Trap AluOut :=
  if b = 0 then .error (.divideByZero rb) else .ok (.result (a / b))

/-- The ALU (R130): the operation select, the values `a = x[ra]` and `b = x[rb]`, and the index rb that DivideByZero
reports. A select outside the set is UnsupportedOperation (R136); the EXT_ALU operations are in the set only when `ext`. -/
def alu (ext : Bool) (sel a : Byte) (rb : Reg) (b : Byte) : Except Trap AluOut :=
  match aluBase sel a b with
  | some out => .ok out
  | none =>
    if ext = false then .error (.unsupportedOperation sel)
    else if sel = Opcode.div then aluDiv a rb b
    else
      match aluExt sel a b with
      | some out => .ok out
      | none => .error (.unsupportedOperation sel)

/-- The write-back: a result to x[ra], flags to FL (R130). -/
def State.writeAlu (s : State) (ra : Reg) : AluOut → State
  | .result v => s.writeReg ra v
  | .flags fl => s.setFl fl

/-- A two-operand ALU operation: read Rra, read Rrb, operate, write back, pc0 + 3. -/
def State.aluTwo (s : State) (sel : Byte) (ra rb : Reg) : Except Trap State := do
  let (a, b) ← s.readTwo ra rb
  let out ← alu s.cfg.extAlu sel a rb b
  return (s.writeAlu ra out).advance 3

/-- A one-operand ALU operation: read Rra, operate, write back, pc0 + 2. -/
def State.aluOne (s : State) (sel : Byte) (ra : Reg) : Except Trap State := do
  let a ← s.readReg ra
  let out ← alu s.cfg.extAlu sel a ra a
  return (s.writeAlu ra out).advance 2

/-! ## The base instructions -/

/-- ADD ra, rb (R132). -/
def execAdd (ra rb : Reg) (s : State) : Host.Outcome State Fault Refusal :=
  s.complete Opcode.add (s.aluTwo Opcode.add ra rb)

/-- SUB ra, rb: ra minus rb (R133). -/
def execSub (ra rb : Reg) (s : State) : Host.Outcome State Fault Refusal :=
  s.complete Opcode.sub (s.aluTwo Opcode.sub ra rb)

/-- MUL ra, rb: the low 8 bits of the product (R134). -/
def execMul (ra rb : Reg) (s : State) : Host.Outcome State Fault Refusal :=
  s.complete Opcode.mul (s.aluTwo Opcode.mul ra rb)

/-- CMP ra, rb: sets FL and advances by 3 (R135; 90_conflicts.md C1). -/
def execCmp (ra rb : Reg) (s : State) : Host.Outcome State Fault Refusal :=
  s.complete Opcode.cmp (s.aluTwo Opcode.cmp ra rb)

/-! ## The EXT_ALU instructions -/

/-- DIV ra, rb (R140). -/
def execDiv (ra rb : Reg) (s : State) : Host.Outcome State Fault Refusal :=
  s.complete Opcode.div (s.aluTwo Opcode.div ra rb)

/-- AND ra, rb (R141). -/
def execAnd (ra rb : Reg) (s : State) : Host.Outcome State Fault Refusal :=
  s.complete Opcode.and (s.aluTwo Opcode.and ra rb)

/-- OR ra, rb (R142). -/
def execOr (ra rb : Reg) (s : State) : Host.Outcome State Fault Refusal :=
  s.complete Opcode.or (s.aluTwo Opcode.or ra rb)

/-- XOR ra, rb (R143). -/
def execXor (ra rb : Reg) (s : State) : Host.Outcome State Fault Refusal :=
  s.complete Opcode.xor (s.aluTwo Opcode.xor ra rb)

/-- NOT ra (R144). -/
def execNot (ra : Reg) (s : State) : Host.Outcome State Fault Refusal :=
  s.complete Opcode.not (s.aluOne Opcode.not ra)

/-- SHL ra, rb (R145). -/
def execShl (ra rb : Reg) (s : State) : Host.Outcome State Fault Refusal :=
  s.complete Opcode.shl (s.aluTwo Opcode.shl ra rb)

/-- SHR ra, rb: a logical shift (R146). -/
def execShr (ra rb : Reg) (s : State) : Host.Outcome State Fault Refusal :=
  s.complete Opcode.shr (s.aluTwo Opcode.shr ra rb)

end Sys2Proof.Machine
end

