-- ==== Sys2Proof/Machine/Control.lean ====
section
/-! DEFINITION. The control transfers CALL, RET, JMP, JEQ and JNE (44_control.md). -/

namespace Sys2Proof.Machine

/-- The return address pc0 + 2 as a byte; one above 255 cannot be stored and raises BoundsFault (R181). -/
def State.returnByte (s : State) : Except Trap Byte :=
  let ret := s.pc.toNat + 2
  if ret > 255 then .error (.boundsFault ret) else .ok (BitVec.ofNat 8 ret)

/-- CALL ra: check that Rra is written, then the return address, then push it and jump to Rra, read after the SP update
(R180, R181). -/
def execCall (ra : Reg) (s : State) : Host.Outcome State Fault Refusal :=
  s.complete Opcode.call do
    let _ ← s.readReg ra
    let ret ← s.returnByte
    let s1 ← s.decSp
    let s2 ← s1.setStackTop ret
    s2.jumpTo ra

/-- RET: pop the PC (R182). -/
def execRet (s : State) : Host.Outcome State Fault Refusal :=
  s.complete Opcode.ret do
    let t ← s.stackTop
    let s1 ← s.incSp
    return s1.setPc t.toPc

/-- JMP ra (R183). -/
def execJmp (ra : Reg) (s : State) : Host.Outcome State Fault Refusal :=
  s.complete Opcode.jmp (s.jumpTo ra)

/-- JEQ ra: taken when FL.E is 1; Rra is read only then (R184). -/
def execJeq (ra : Reg) (s : State) : Host.Outcome State Fault Refusal :=
  s.complete Opcode.jeq (if flagE s.fl then s.jumpTo ra else .ok (s.advance 2))

/-- JNE ra: taken when FL.E is 0; Rra is read only then (R185). -/
def execJne (ra : Reg) (s : State) : Host.Outcome State Fault Refusal :=
  s.complete Opcode.jne (if flagE s.fl then .ok (s.advance 2) else s.jumpTo ra)

end Sys2Proof.Machine
end

