-- ==== Sys2Proof/Machine/Data.lean ====
section
/-! DEFINITION. The data instructions LDI and PRN (41_data.md). -/

namespace Sys2Proof.Machine

/-- LDI ra, imm (R120). -/
def execLdi (ra : Reg) (imm : Byte) (s : State) : Host.Outcome State Fault Refusal :=
  s.complete Opcode.ldi (.ok ((s.writeReg ra imm).advance 3))

/-- PRN ra: one byte to the output port (R121). -/
def execPrn (ra : Reg) (s : State) : Host.Outcome State Fault Refusal :=
  s.complete Opcode.prn do
    let v ← s.readReg ra
    return (s.emit v).advance 2

end Sys2Proof.Machine
end

