-- ==== Sys2Proof/Machine/Stack.lean ====
section
/-! DEFINITION. The stack instructions PUSH and POP (43_stack.md). -/

namespace Sys2Proof.Machine

/-- PUSH ra: decrement SP, then store Rra, read after the SP update, at the new SP (R170). -/
def execPush (ra : Reg) (s : State) : Host.Outcome State Fault Refusal :=
  s.complete Opcode.push do
    let s1 ← s.decSp
    let v ← s1.readReg ra
    let s2 ← s1.setStackTop v
    return s2.advance 2

/-- POP ra: the byte at SP to Rra, then increment SP as it stands after that write (R171). -/
def execPop (ra : Reg) (s : State) : Host.Outcome State Fault Refusal :=
  s.complete Opcode.pop do
    let v ← s.stackTop
    let s1 ← (s.writeReg ra v).incSp
    return s1.advance 2

end Sys2Proof.Machine
end

