-- ==== Sys2Proof/Machine/System.lean ====
section
/-! DEFINITION. The system instruction HLT (40_system.md). -/

namespace Sys2Proof.Machine

/-- HLT: PC becomes 0 and the core enters Halted; nothing else changes (R110, R111). -/
def execHlt (s : State) : Host.Outcome State Fault Refusal :=
  s.complete Opcode.hlt (.ok { s.setPc 0 with runState := .halted })

end Sys2Proof.Machine
end

