-- ==== Sys2Proof/Machine/Fetch.lean ====
section
/-! DEFINITION. The fetch half of the instruction cycle (30_encoding.md R90 to R93). -/

namespace Sys2Proof.Machine

/-- The decoder's rejections as faults (R86, R89). -/
def Trap.ofReject : Reject → Trap
  | .unknownOpcode op => .unknownOpcode op
  | .illegalRegister value => .illegalRegister value

/-- The byte at pc0 + k: a fetch is a plain memory read, so it sees the latest write (20_memory.md R63). The address is a
number, so that it does not wrap (10_state.md R25). -/
def State.fetchByte (s : State) (k : Nat) : Except Trap Byte :=
  memRead s.mem (s.pc.toNat + k)

/-- A fault of the fetch: the opcode byte, if it was fetched, and the condition. -/
structure FetchFault where
  opcode : Option Byte
  trap   : Trap
deriving DecidableEq, Repr

/-- Fetch and decode the instruction at the PC, in the order of R90 and R93: the opcode byte, the active map, the operand
bytes that the instruction uses, the register checks. -/
def State.fetchInstr (s : State) : Except FetchFault Instr :=
  match s.fetchByte 0 with
  | .error t => .error ⟨none, t⟩
  | .ok op =>
    match decodeOperands Trap.ofReject s.fetchByte s.cfg.extAlu op with
    | .error t => .error ⟨some op, t⟩
    | .ok i => .ok i

end Sys2Proof.Machine
end

