-- ==== Sys2Proof/Machine/Step.lean ====
section
/-! DEFINITION. The step of the core (30_encoding.md R90, R96). -/

namespace Sys2Proof.Machine

/-- One step: Halted and Faulted have no successor (R96, log 6); a Running core executes one instruction or raises one
fault (R90), which is a next state (60_exceptions.md R203, log 7). -/
def step (s : State) : Host.Outcome State Fault Refusal :=
  match s.runState with
  | .halted => .fault .coreHalted
  | .faulted => .fault .coreFaulted
  | .running =>
    match s.fetchInstr with
    | .error f => .next (s.raise f.opcode f.trap)
    | .ok i => exec i s

/-- The opcode byte is one of 30_encoding.md R84's. -/
def isExtOpcode (op : Byte) : Bool := (findRow op extMap).isSome

/-- `s` with the table word's bytes stored at the PC, and with what the fetch of it needs: a Running core, and
`EXT_ALU = true` when the opcode is one of R84's (log 3, log 4). -/
def State.withFetchWord (s : State) (nbits w : Nat) : State :=
  { s with
    mem := Memory.place s.pc.toNat (tableBytes nbits w) s.mem
    runState := .running
    cfg := { s.cfg with extAlu := isExtOpcode (BitVec.ofNat 8 (w % 2 ^ nbits)) || s.cfg.extAlu } }

end Sys2Proof.Machine
end

