-- ==== Sys2Proof/Machine/Boot.lean ====
section
/-! DEFINITION. The host's side before execution: the reset input, the program file, the load port and the lifecycle
(70_reset_and_hazards.md sections 1 and 2; 60_exceptions.md R202). None of it is a step of the core. -/

namespace Sys2Proof.Machine

/-! ## Reset (R230) -/

/-- The reset input: every register and record to its reset value, and memory unchanged (R230; log 15). It is the only way
out of Halted and Faulted. -/
def State.resetInput (s : State) : State :=
  { State.powerOn s.cfg with mem := s.mem }

/-! ## The program file (R237 to R239) -/

/-- The host's load failures (60_exceptions.md R202). -/
inductive LoadError where
  | programNotFound
  | malformedProgram (literal : Text)
deriving DecidableEq, Repr

/-- The text between line feeds. -/
def splitLines : Text → List Text
  | [] => [[]]
  | c :: cs =>
    match splitLines cs with
    | [] => [[c]]
    | l :: ls => if c = '\n' then [] :: l :: ls else (c :: l) :: ls

/-- The text without its leading and trailing whitespace (log 13). -/
def strip (t : Text) : Text :=
  ((t.dropWhile Char.isWhitespace).reverse.dropWhile Char.isWhitespace).reverse

/-- The text before the first `#`, stripped (R237 item 3). -/
def literalOf (t : Text) : Text :=
  strip (t.takeWhile (· ≠ '#'))

/-- A non-empty string of the digits 0 and 1 (R237). -/
def isBinaryLiteral (lit : Text) : Bool :=
  !lit.isEmpty && lit.all (fun c => c = '0' || c = '1')

/-- The base-2 integer of a binary literal (R237). -/
def binaryValue (lit : Text) : Nat :=
  lit.foldl (fun v c => 2 * v + (if c = '1' then 1 else 0)) 0

/-- What a line of the program file gives. -/
inductive Line where
  | skip
  | byte (b : Byte)
  | malformed
deriving DecidableEq, Repr

/-- One line of the program file (R237, R239). -/
def parseLine (line : Text) : Line :=
  match strip line with
  | [] => .skip
  | '#' :: _ => .skip
  | t =>
    let lit := literalOf t
    if isBinaryLiteral lit && decide (binaryValue lit ≤ 255) then .byte (BitVec.ofNat 8 (binaryValue lit))
    else .malformed

/-- The bytes of the lines, in order, with room for `room` of them: the first line that is malformed, or that gives a byte
with no room left, is MalformedProgram with its literal (R238, R239). -/
def parseLines : Nat → List Text → Except LoadError (List Byte)
  | _, [] => .ok []
  | room, line :: rest =>
    match parseLine line, room with
    | .skip, _ => parseLines room rest
    | .byte b, room + 1 => do
      let bs ← parseLines room rest
      return b :: bs
    | .byte _, 0 => .error (.malformedProgram (literalOf (strip line)))
    | .malformed, _ => .error (.malformedProgram (literalOf (strip line)))

/-- The image of a program file: at most 256 bytes (R239). -/
def parseProgram (t : Text) : Except LoadError (List Byte) :=
  parseLines Config.memSize (splitLines t)

/-! ## The load port and the lifecycle (R233, R236) -/

/-- The load port: `MemWrite(k, 1, vk)` for k = 0, 1, … (R236). -/
def State.loadImage (s : State) (image : List Byte) : State :=
  { s with mem := Memory.place 0 image s.mem }

/-- The lifecycle up to the release of reset (R233): the core is reset, the host loads the image of the file, and execution
starts at PC = 0. A file that is not there is `none`. When the load fails, there is no started core (R238). -/
def State.restart (s : State) (file : Option Text) : Except LoadError State :=
  match file with
  | none => .error .programNotFound
  | some t => do
    let image ← parseProgram t
    return s.resetInput.loadImage image

/-- A run from power-on under the configuration `cfg`. -/
def boot (cfg : Config) (file : Option Text) : Except LoadError State :=
  (State.powerOn cfg).restart file

end Sys2Proof.Machine
end

