-- ==== Sys2Proof/Machine/Report.lean ====
section
/-! DEFINITION. What the host reads from the core: the output text, the diagnostic, the exit status and the trace
(10_state.md R36; 60_exceptions.md R212, R213, R215), and the spelling of instructions (30_encoding.md R98). All are
functions of the state; none changes it. -/

namespace Sys2Proof.Machine

/-- A number in decimal, with no leading zeros and no sign (41_data.md R121). -/
def decimal (n : Nat) : Text := Nat.toDigits 10 n

/-- The text of one output byte: its decimal value and a newline (10_state.md R36, 41_data.md R121). -/
def outputLine (v : Byte) : Text := decimal v.toNat ++ ['\n']

/-- The text that the host writes for the output sequence, in program order (10_state.md R36). -/
def State.outputText (s : State) : Text := s.output.flatMap outputLine

/-- A byte as 8 binary digits (60_exceptions.md R212). -/
def binary8 (v : Byte) : Text :=
  [7, 6, 5, 4, 3, 2, 1, 0].map (fun k => if v.getLsbD k then '1' else '0')

/-- The name of a cause (R201). -/
def FaultCause.name : FaultCause → Text
  | .none => "none".toList
  | .unknownOpcode => "UnknownOpcode".toList
  | .unsupportedOperation => "UnsupportedOperation".toList
  | .boundsFault => "BoundsFault".toList
  | .illegalRegister => "IllegalRegister".toList
  | .divideByZero => "DivideByZero".toList
  | .unwrittenRead => "UnwrittenRead".toList

/-- What a message reports before the address (R212): for UnknownOpcode its fixed form, for another cause its name and
`fault_info` in decimal (log 14). -/
def FaultRecord.subject (f : FaultRecord) : Text :=
  match f.cause, f.info with
  | .unknownOpcode, .opcode op => "Unknown opcode ".toList ++ binary8 op
  | cause, info =>
    match info.value with
    | some v => cause.name ++ [' '] ++ decimal v
    | none => cause.name

/-- The message of a fault: what, and the faulting address in decimal (R212). -/
def FaultRecord.message (f : FaultRecord) : Text :=
  f.subject ++ " at address ".toList ++ decimal f.pc.toNat

/-- The diagnostic that the host reports for a Faulted core (R212). -/
def State.diagnostic (s : State) : Option Text :=
  match s.runState with
  | .faulted => some s.fault.message
  | .running => none
  | .halted => none

/-- The process exit status that the host reads from a final state; a Running core has none (R213). -/
def State.exitStatus (s : State) : Option Nat :=
  match s.runState with
  | .halted => some 0
  | .faulted => some 1
  | .running => none

/-- The exit status of a failed load (R213). -/
def LoadError.exitStatus : LoadError → Nat
  | .programNotFound => 2
  | .malformedProgram _ => 1

/-- What the optional trace shows: PC, the three bytes at and after PC, and R0..R7. `none` is "unknown": unwritten, or past
255 (R215). -/
structure Trace where
  pc    : Pc
  bytes : List (Option Byte)
  regs  : List (Option Byte)
deriving DecidableEq, Repr

/-- The byte at address `a` for the trace, which never faults (R215). -/
def traceByte (m : Memory) (a : Nat) : Option Byte :=
  if a < Config.memSize then m.read a else none

/-- The trace of a state (R215). -/
def State.trace (s : State) : Trace :=
  { pc := s.pc
    bytes := [0, 1, 2].map (fun k => traceByte s.mem (s.pc.toNat + k))
    regs := [Reg.r0, .r1, .r2, .r3, .r4, .r5, .r6, .r7].map
      (fun r => if s.written.get r then some (s.regs.get r) else none) }

/-- The spelling of a register, `R0` to `R7` (30_encoding.md R98). -/
def regText (r : Reg) : Text := 'R' :: decimal r.toByte.toNat

/-- An instruction in assembly text: its mnemonic, then its operands in encoding order, separated by a comma (R98). -/
def Instr.text (i : Instr) : Text :=
  match i with
  | .hlt => "HLT".toList
  | .ldi ra imm => "LDI ".toList ++ regText ra ++ [','] ++ decimal imm.toNat
  | .prn ra => "PRN ".toList ++ regText ra
  | .add ra rb => "ADD ".toList ++ regText ra ++ [','] ++ regText rb
  | .sub ra rb => "SUB ".toList ++ regText ra ++ [','] ++ regText rb
  | .mul ra rb => "MUL ".toList ++ regText ra ++ [','] ++ regText rb
  | .cmp ra rb => "CMP ".toList ++ regText ra ++ [','] ++ regText rb
  | .push ra => "PUSH ".toList ++ regText ra
  | .pop ra => "POP ".toList ++ regText ra
  | .call ra => "CALL ".toList ++ regText ra
  | .ret => "RET".toList
  | .jmp ra => "JMP ".toList ++ regText ra
  | .jeq ra => "JEQ ".toList ++ regText ra
  | .jne ra => "JNE ".toList ++ regText ra
  | .div ra rb => "DIV ".toList ++ regText ra ++ [','] ++ regText rb
  | .and ra rb => "AND ".toList ++ regText ra ++ [','] ++ regText rb
  | .or ra rb => "OR ".toList ++ regText ra ++ [','] ++ regText rb
  | .xor ra rb => "XOR ".toList ++ regText ra ++ [','] ++ regText rb
  | .not ra => "NOT ".toList ++ regText ra
  | .shl ra rb => "SHL ".toList ++ regText ra ++ [','] ++ regText rb
  | .shr ra rb => "SHR ".toList ++ regText ra ++ [','] ++ regText rb

end Sys2Proof.Machine
end

