-- ==== Sys2Proof/Safety.lean ====
section
/-! DEFINITION. The words in which claims about the machine are stated: the invariant, reachability, safe runs, frames. -/

namespace Sys2Proof.Machine

/-! ## Invariant and runs -/

/-- What holds of every state that a run reaches. -/
structure State.Inv (s : State) : Prop where
  /-- PC holds 0..258 (10_state.md R25). -/
  pcRange : s.pc.toNat ≤ 258
  /-- At most one of E, G and L is set, and bits 7:3 are 0 (10_state.md R28; 90_conflicts.md C8). -/
  flOneHot : s.fl = 0x00#8 ∨ s.fl = 0x01#8 ∨ s.fl = 0x02#8 ∨ s.fl = 0x04#8
  /-- Memory is in canonical form, inside 0..255 (10_state.md R31). -/
  memWf : s.mem.wf
  /-- SP has its written mark (10_state.md R24). -/
  spWritten : s.written.get .sp = true
  /-- The record has a cause exactly in Faulted (60_exceptions.md R203, 70_reset_and_hazards.md R230). -/
  faultCause : s.runState = .faulted ↔ s.fault.cause ≠ .none
  /-- In Faulted, PC stays pc0 (60_exceptions.md R203). -/
  faultPc : s.runState = .faulted → s.fault.pc = s.pc
  /-- In Halted, PC is 0 (40_system.md R110). -/
  haltedPc : s.runState = .halted → s.pc = 0

/-- `t` is reached from `s` by steps of the core. -/
inductive Reaches (s : State) : State → Prop where
  | refl : Reaches s s
  | step {t u : State} : Reaches s t → Sys2Proof.Machine.step t = .next u → Reaches s u

/-- A safe run: no fault is ever taken. -/
def State.NeverFaults (s : State) : Prop := ∀ t, Reaches s t → t.runState ≠ .faulted

/-- Every register has its written mark. -/
def State.AllMarked (s : State) : Prop := ∀ r, s.written.get r = true

/-! ## Reading the state -/

/-- Register `r` has its written mark, so it can be read (10_state.md R24). -/
abbrev Readable (s : State) (r : Reg) : Prop := s.written.get r = true

/-- The value of register `r` as a number. -/
abbrev val (s : State) (r : Reg) : Nat := (s.regs.get r).toNat

/-- The number that SP holds after a decrement: the address that the next push writes (20_memory.md R57). -/
abbrev pushAddr (s : State) : Nat := (val s .sp + 255) % 256

/-- The memory holds `bytes` at the PC and the addresses after it, all of them inside 0..255. -/
abbrev BytesAtPc (s : State) (bytes : List Byte) : Prop :=
  ∀ k, (h : k < bytes.length) → s.pc.toNat + k < 256 ∧ s.mem.read (s.pc.toNat + k) = some bytes[k]

/-- How many operands of an instruction are register indices (30_encoding.md R88). -/
def registerOperands : Instr → Nat
  | .hlt | .ret => 0
  | .ldi .. | .prn .. | .push .. | .pop .. | .call .. | .jmp .. | .jeq .. | .jne .. | .not .. => 1
  | .add .. | .sub .. | .mul .. | .cmp .. | .div .. | .and .. | .or .. | .xor .. | .shl .. | .shr .. => 2

/-! ## Frames -/

/-- Every register outside `rs` keeps its value and its mark. -/
def KeepsRegs (rs : List Reg) (s t : State) : Prop :=
  ∀ r, r ∉ rs → t.regs.get r = s.regs.get r ∧ t.written.get r = s.written.get r

/-- Every byte of memory outside the addresses `as` reads as before. -/
def KeepsMem (as : List Nat) (s t : State) : Prop :=
  ∀ a, a ∉ as → t.mem.read a = s.mem.read a

/-- The configuration, the run state and the fault record are unchanged. -/
def KeepsRun (s t : State) : Prop :=
  t.cfg = s.cfg ∧ t.runState = s.runState ∧ t.fault = s.fault

/-- Everything is unchanged but PC, the registers `rs` and the bytes at `as`. -/
def KeepsBut (rs : List Reg) (as : List Nat) (s t : State) : Prop :=
  KeepsRegs rs s t ∧ KeepsMem as s t ∧ t.fl = s.fl ∧ t.output = s.output ∧ KeepsRun s t

/-- The outcome with `f` applied to its next state. -/
def mapNext (f : State → State) : Host.Outcome State Fault Refusal → Host.Outcome State Fault Refusal
  | .next t => .next (f t)
  | .fault e => .fault e
  | .refused e => .refused e

/-- The only effect of the outcome `o` of `s` is a fault of cause `c` (60_exceptions.md R203). -/
def OnlyFaults (s : State) (c : FaultCause) (o : Host.Outcome State Fault Refusal) : Prop :=
  ∃ t, o = .next t ∧ t.runState = .faulted ∧ t.fault.cause = c ∧ t.fault.pc = s.pc ∧ t.pc = s.pc ∧
    t.regs = s.regs ∧ t.written = s.written ∧ t.fl = s.fl ∧ t.mem = s.mem ∧ t.output = s.output ∧ t.cfg = s.cfg

/-! ## The shape of a two-register ALU rule (42_alu.md R132) -/

/-- The rule of an operation `x[ra] <- f a b; pc <- pc0 + 3` on two registers, with opcode `op`: its encoding; its
result where `on` holds of the state and of the operand values; UnwrittenRead of Rra, then of Rrb; IllegalRegister of b1,
then of b2. -/
def TwoRegisterRule (op : Byte) (mk : Reg → Reg → Instr) (on : State → Nat → Nat → Prop) (f : Nat → Nat → Nat) : Prop :=
  ∀ (ra rb : Reg) (s : State),
    encode (mk ra rb) = [op, ra.toByte, rb.toByte] ∧
    (Readable s ra → Readable s rb → on s (val s ra) (val s rb) →
      ∃ t, exec (mk ra rb) s = .next t ∧ val t ra = f (val s ra) (val s rb) ∧ Readable t ra ∧ t.pc = s.pc + 3 ∧
        KeepsBut [ra] [] s t) ∧
    (¬ Readable s ra → exec (mk ra rb) s = .next (s.raise (some op) (.unwrittenReg ra))) ∧
    (Readable s ra → ¬ Readable s rb → exec (mk ra rb) s = .next (s.raise (some op) (.unwrittenReg rb))) ∧
    (∀ ext, (mk ra rb).wellFormed ext = true → ∀ b1 b2 : Byte,
      (7 < b1.toNat → decode ext [op, b1, b2] = .error (.rejected (.illegalRegister b1))) ∧
      (b1.toNat ≤ 7 → 7 < b2.toNat → decode ext [op, b1, b2] = .error (.rejected (.illegalRegister b2))))

/-- The rule of an instruction with opcode `op` and one register operand, before its effect: its encoding, and
IllegalRegister of b1. -/
def OneRegisterForm (op : Byte) (mk : Reg → Instr) : Prop :=
  ∀ (ra : Reg) (ext : Bool), encode (mk ra) = [op, ra.toByte] ∧
    ((mk ra).wellFormed ext = true → ∀ b1 : Byte, 7 < b1.toNat →
      decode ext [op, b1] = .error (.rejected (.illegalRegister b1)))

end Sys2Proof.Machine
end

