-- ==== Sys2Proof/Certificates/Slice0/Obligations.lean ====
section
/-! DEFINITION. The statements for the provers, from the numbered rules of spec/. The vocabulary is that of Safety.lean. -/

open Sys2Proof Sys2Proof.Machine

/-! ## Encoding -/

/-- Decoding the bytes of a well-formed instruction, whatever follows them, gives it back with the bytes that follow
(30_encoding.md sections 1 to 3). -/
def Obligations.DecodeOfEncode : Prop :=
  ∀ (ext : Bool) (i : Instr) (rest : List Byte), i.wellFormed ext = true →
    decode ext (encode i ++ rest) = .ok (i, rest)

/-- What decodes is the encoding of the one well-formed instruction it decodes to: each sequence of bytes has one meaning
(30_encoding.md sections 2 to 4, R99). -/
def Obligations.DecodedBytesAreTheEncoding : Prop :=
  ∀ (ext : Bool) (bytes rest : List Byte) (i : Instr), decode ext bytes = .ok (i, rest) →
    i.wellFormed ext = true ∧ bytes = encode i ++ rest

/-- Words written out from the tables of R83 and R84 decode to the instructions they stand for. -/
def Obligations.TableWordsDecode : Prop :=
  decode false [0b00000001#8] = .ok (.hlt, []) ∧
  decode false [0b10000010#8, 0b00000000#8, 0b00001000#8] = .ok (.ldi .r0 8, []) ∧
  decode false [0b01000111#8, 0b00000011#8] = .ok (.prn .r3, []) ∧
  decode false [0b10100001#8, 0b00000001#8, 0b00000110#8] = .ok (.sub .r1 .r6, []) ∧
  decode false [0b10100111#8, 0b00000100#8, 0b00000101#8] = .ok (.cmp .r4 .r5, []) ∧
  decode false [0b01000101#8, 0b00000111#8] = .ok (.push .r7, []) ∧
  decode false [0b01010000#8, 0b00000010#8] = .ok (.call .r2, []) ∧
  decode false [0b00010001#8] = .ok (.ret, []) ∧
  decode false [0b01010110#8, 0b00000011#8] = .ok (.jne .r3, []) ∧
  decode true [0b10100011#8, 0b00000000#8, 0b00000001#8] = .ok (.div .r0 .r1, []) ∧
  decode true [0b01101001#8, 0b00000010#8] = .ok (.not .r2, []) ∧
  decode true [0b10101101#8, 0b00000110#8, 0b00000111#8] = .ok (.shr .r6 .r7, [])

/-- R85: the length is 1 + op[7:6], and gives the lengths of the source's table. -/
def Obligations.InstructionLength : Prop :=
  ∀ i : Instr, (encode i).length = 1 + i.opcode.toNat / 64 ∧
    (encode i).length =
      match i with
      | .hlt | .ret => 1
      | .prn .. | .push .. | .pop .. | .call .. | .jmp .. | .jeq .. | .jne .. | .not .. => 2
      | .ldi .. | .add .. | .sub .. | .mul .. | .cmp .. | .div .. | .and .. | .or .. | .xor .. | .shl .. | .shr .. => 3

/-- R86: a register-index operand is the whole byte. The values 0..7 name the eight registers, one each; a value 8..255
is IllegalRegister, whatever the instruction and before it changes anything; no rule masks bits off. -/
def Obligations.RegisterIndexIsTheWholeByte : Prop :=
  (∀ b : Byte, b.toNat ≤ 7 → ∃ r, Reg.ofByte b = some r ∧ r.toByte = b) ∧
  (∀ b : Byte, 7 < b.toNat → Reg.ofByte b = none) ∧
  (∀ r : Reg, Reg.ofByte r.toByte = some r) ∧
  (∀ (ext : Bool) (i : Instr) (b : Byte) (more : List Byte), i.wellFormed ext = true → 1 ≤ registerOperands i →
    7 < b.toNat → (encode i).length ≤ 2 + more.length →
    decode ext (i.opcode :: b :: more) = .error (.rejected (.illegalRegister b))) ∧
  (∀ (s : State) (i : Instr) (b : Byte) (more : List Byte), s.runState = .running →
    i.wellFormed s.cfg.extAlu = true → 1 ≤ registerOperands i → 7 < b.toNat →
    (encode i).length = 2 + more.length → BytesAtPc s (i.opcode :: b :: more) →
    step s = .next (s.raise (some i.opcode) (.illegalRegister b)))

/-- R11: with `EXT_ALU = false` the R84 opcodes are unknown opcodes, with `EXT_ALU = true` they decode, and every other
byte sequence decodes alike under both values, which never affect a base instruction's meaning. -/
def Obligations.ExtAluGatesTheExtension : Prop :=
  (∀ i rest, i.isExtAlu = true →
    decode false (encode i ++ rest) = .error (.rejected (.unknownOpcode i.opcode)) ∧
    decode true (encode i ++ rest) = .ok (i, rest)) ∧
  (∀ bytes, (∀ i : Instr, i.isExtAlu = true → bytes.head? ≠ some i.opcode) → decode false bytes = decode true bytes) ∧
  (∀ (i : Instr) (s : State) (ext : Bool), i.isExtAlu = false →
    exec i { s with cfg := { s.cfg with extAlu := ext } } =
      mapNext (fun t => { t with cfg := { t.cfg with extAlu := ext } }) (exec i s))

/-! ## The instruction cycle -/

/-- A step of a Running core runs the instruction that the bytes at the PC decode to. The meaning itself moves the PC; the
step adds nothing around it (30_encoding.md section 5). -/
def Obligations.StepRunsTheDecodedInstruction : Prop :=
  ∀ (s : State) (bytes rest : List Byte) (i : Instr), s.runState = .running → BytesAtPc s bytes →
    decode s.cfg.extAlu bytes = .ok (i, rest) → step s = exec i s

/-- A table word placed at the PC by `withFetchWord` is what the next step runs, whatever the state was (the model's own
interface, log 3 and log 4). -/
def Obligations.PlacedWordRunsNext : Prop :=
  ∀ (s : State) (nbits w : Nat) (i : Instr), decodeTableWord nbits w = some i → s.pc.toNat ≤ 253 →
    step (s.withFetchWord nbits w) = exec i (s.withFetchWord nbits w)

/-- R92: only the bytes that the instruction uses are fetched. When they are at the PC, the instruction runs, wherever it
stands (HLT at 255, a 2-byte instruction at 254) and whatever any other byte is. -/
def Obligations.OnlyUsedBytesAreFetched : Prop :=
  ∀ (s : State) (i : Instr), s.runState = .running → i.wellFormed s.cfg.extAlu = true →
    (∀ k, (h : k < (encode i).length) → s.mem.read (s.pc.toNat + k) = some (encode i)[k]) →
    s.pc.toNat + (encode i).length ≤ 256 → step s = exec i s

/-- R91: the opcode fetch. A PC above 255, which under the invariant is 256..258, raises BoundsFault(pc0); an unwritten
byte raises UnwrittenRead(pc0). In both cases no opcode is recorded. -/
def Obligations.OpcodeFetchFaults : Prop :=
  ∀ s : State, s.runState = .running →
    (255 < s.pc.toNat → step s = .next (s.raise none (.boundsFault s.pc.toNat))) ∧
    (s.Inv → s.pc.toNat ≤ 258) ∧
    (s.pc.toNat ≤ 255 → s.mem.read s.pc.toNat = none → step s = .next (s.raise none (.unwrittenByte s.pc.toNat)))

/-- R89: a byte that is the opcode of no instruction of the active map raises UnknownOpcode at pc0, whatever follows it.
There are 14 legal opcode bytes (21 with EXT_ALU); 0x00 and every 11xxxxxx byte are among the others. -/
def Obligations.UnknownOpcodeFaults : Prop :=
  (∀ (s : State) (op : Byte), s.runState = .running → s.pc.toNat ≤ 255 → s.mem.read s.pc.toNat = some op →
    (∀ i : Instr, i.wellFormed s.cfg.extAlu = true → i.opcode ≠ op) →
    step s = .next (s.raise (some op) (.unknownOpcode op))) ∧
  (∀ i : Instr, i.opcode ≠ 0x00#8 ∧ i.opcode.toNat < 192) ∧
  ((List.range 256).filter (fun n => (decode false [BitVec.ofNat 8 n, 0, 0]).isOk)).length = 14 ∧
  ((List.range 256).filter (fun n => (decode true [BitVec.ofNat 8 n, 0, 0]).isOk)).length = 21

/-- R93: the operand bytes are read in ascending order, each raising BoundsFault or UnwrittenRead of its own address; only
then are the register indices checked, operand a first. Each of these faults is the only effect of the step. -/
def Obligations.OperandFetchAndChecks : Prop :=
  ∀ (s : State) (i : Instr), s.runState = .running → i.wellFormed s.cfg.extAlu = true → s.pc.toNat ≤ 255 →
    s.mem.read s.pc.toNat = some i.opcode →
    (∀ k, 1 ≤ k → k < (encode i).length →
      (∀ j, 1 ≤ j → j < k → s.pc.toNat + j ≤ 255 ∧ s.mem.read (s.pc.toNat + j) ≠ none) →
      (255 < s.pc.toNat + k → step s = .next (s.raise (some i.opcode) (.boundsFault (s.pc.toNat + k)))) ∧
      (s.pc.toNat + k ≤ 255 → s.mem.read (s.pc.toNat + k) = none →
        step s = .next (s.raise (some i.opcode) (.unwrittenByte (s.pc.toNat + k))))) ∧
    (∀ b1, 1 ≤ registerOperands i → s.pc.toNat + (encode i).length ≤ 256 →
      s.mem.read (s.pc.toNat + 1) = some b1 →
      ((encode i).length = 3 → s.mem.read (s.pc.toNat + 2) ≠ none) → 7 < b1.toNat →
      step s = .next (s.raise (some i.opcode) (.illegalRegister b1))) ∧
    (∀ b1 b2, registerOperands i = 2 → s.pc.toNat + 3 ≤ 256 → s.mem.read (s.pc.toNat + 1) = some b1 →
      s.mem.read (s.pc.toNat + 2) = some b2 → b1.toNat ≤ 7 → 7 < b2.toNat →
      step s = .next (s.raise (some i.opcode) (.illegalRegister b2)))

/-- R96: in Halted and in Faulted the core takes no step, whatever the rest of its state, and reset leaves both. -/
def Obligations.StoppedCoreTakesNoStep : Prop :=
  ∀ s : State,
    (s.runState = .halted → step s = .fault .coreHalted) ∧
    (s.runState = .faulted → step s = .fault .coreFaulted) ∧
    s.resetInput.runState = .running

/-- A Running core always has a next state: a step executes one instruction or takes one fault, and never refuses
(30_encoding.md section 5). -/
def Obligations.RunningCoreAlwaysSteps : Prop :=
  ∀ s : State, s.runState = .running → ∃ t, step s = .next t

/-- R26: the next PC of each instruction that completes, as a number, so that no advance wraps. The target register is read
after the instruction's SP update (R180). -/
def Obligations.NextPc : Prop :=
  ∀ (i : Instr) (s t : State), s.pc.toNat ≤ 255 → exec i s = .next t → t.runState ≠ .faulted →
    match i with
    | .ldi .. | .add .. | .sub .. | .mul .. | .cmp .. => t.pc.toNat = s.pc.toNat + 3
    | .div .. | .and .. | .or .. | .xor .. | .shl .. | .shr .. => t.pc.toNat = s.pc.toNat + 3
    | .prn .. | .push .. | .pop .. | .not .. => t.pc.toNat = s.pc.toNat + 2
    | .call ra | .jmp ra => t.pc.toNat = val t ra
    | .jeq ra => t.pc.toNat = if s.fl.getLsbD 0 then val s ra else s.pc.toNat + 2
    | .jne ra => t.pc.toNat = if s.fl.getLsbD 0 then s.pc.toNat + 2 else val s ra
    | .ret => s.mem.read (val s .sp) = some (BitVec.ofNat 8 t.pc.toNat) ∧ t.pc.toNat ≤ 255
    | .hlt => t.pc = 0 ∧ t.runState = .halted

/-! ## Faults -/

/-- R203 and R205: a step that ends in Faulted has recorded the cause, pc0, the opcode byte if it was fetched, and the
info, and has changed nothing else: no register, mark, flag, byte of memory, PC or output. No further step is taken. -/
def Obligations.FaultsArePrecise : Prop :=
  ∀ s t : State, s.runState = .running → step s = .next t → t.runState = .faulted →
    ∃ trap : Trap,
      t.fault.cause = trap.cause ∧ t.fault.cause ≠ .none ∧ t.fault.info = trap.info s.cfg.divideInfo s.pc ∧ t.fault.pc = s.pc ∧
      t.fault.opcode = (if s.pc.toNat ≤ 255 then s.mem.read s.pc.toNat else none) ∧
      t.regs = s.regs ∧ t.written = s.written ∧ t.pc = s.pc ∧ t.fl = s.fl ∧ t.mem = s.mem ∧ t.output = s.output ∧
      t.cfg = s.cfg ∧ step t = .fault .coreFaulted

/-- The codes of `fault_cause` and the values of `fault_info` (60_exceptions.md section 1). DivideByZero reports rb as
the table of causes says, or pc0 as the pseudocode of DIV says: both readings are modelled (log 5). -/
def Obligations.FaultCodes : Prop :=
  FaultCause.none.code = 0 ∧
  ∀ (op : Byte) (a : Nat) (r : Reg) (d : DivideInfo) (pc0 : Pc),
    ((Trap.unknownOpcode op).cause.code = 1 ∧ ((Trap.unknownOpcode op).info d pc0).value = some op.toNat) ∧
    ((Trap.unsupportedOperation op).cause.code = 2 ∧ ((Trap.unsupportedOperation op).info d pc0).value = some op.toNat) ∧
    ((Trap.boundsFault a).cause.code = 3 ∧ ((Trap.boundsFault a).info d pc0).value = some a) ∧
    ((Trap.illegalRegister op).cause.code = 4 ∧ ((Trap.illegalRegister op).info d pc0).value = some op.toNat) ∧
    ((Trap.divideByZero r).cause.code = 5 ∧
      ((Trap.divideByZero r).info .divisorIndex pc0).value = some r.toByte.toNat ∧
      ((Trap.divideByZero r).info .faultingPc pc0).value = some pc0.toNat) ∧
    ((Trap.unwrittenReg r).cause.code = 6 ∧ ((Trap.unwrittenReg r).info d pc0).value = some r.toByte.toNat) ∧
    ((Trap.unwrittenByte a).cause.code = 6 ∧ ((Trap.unwrittenByte a).info d pc0).value = some a)

/-- R136: the ALU answers UnsupportedOperation for every select outside its set, no step of any program raises it, and with
`EXT_ALU = false` the bytes of DIV and the bitwise operations are UnknownOpcode instead. (That a select is numbered by the
opcode byte is the model's choice, log 8.) -/
def Obligations.UnsupportedOperationIsUnreachable : Prop :=
  (∀ (ext : Bool) (sel a b : Byte) (rb : Reg),
    (∀ x y, ∀ i ∈ [Instr.add x y, .sub x y, .mul x y, .cmp x y], sel ≠ i.opcode) →
    (ext = true → ∀ x y, ∀ i ∈ [Instr.div x y, .and x y, .or x y, .xor x y, .not x, .shl x y, .shr x y], sel ≠ i.opcode) →
    alu ext sel a rb b = .error (.unsupportedOperation sel)) ∧
  (∀ s t : State, s.runState = .running → step s = .next t → t.runState = .faulted →
    t.fault.cause ≠ .unsupportedOperation) ∧
  (∀ sel, (Trap.unsupportedOperation sel).cause.code = 2) ∧
  (∀ (i : Instr) (rest : List Byte), i.isExtAlu = true →
    decode false (i.opcode :: rest) = .error (.rejected (.unknownOpcode i.opcode)))

/-- In every run from a state whose registers all have their marks (such as `State.reset`, where RESET_GPR is supplied:
the model's choice, log 1), no register read faults: an UnwrittenRead names an address. That the record tells an address
from a register is the model's choice too (log 10). -/
def Obligations.MarkedRegistersNeverFault : Prop :=
  ∀ s t : State, s.AllMarked → s.fault.cause = .none → Reaches s t →
    t.AllMarked ∧ (t.fault.cause = .unwrittenRead → ∃ a, t.fault.info = .address a)

/-! ## Reset and loading -/

/-- The reset input (70_reset_and_hazards.md section 1): it sets the run state, PC, SP, FL, the output and the record, and
leaves memory; no step leaves Halted or Faulted. R0..R6 are left unwritten; that with RESET_GPR supplied they start at its
values, with their marks, is the option of 10_state.md R24 that the model takes (log 15). When an image is loaded into a
memory that starts unwritten, execution begins with the image at 0..L-1 and unwritten bytes above. -/
def Obligations.ResetInput : Prop :=
  (∀ s : State,
    s.resetInput.runState = .running ∧ s.resetInput.pc = 0 ∧ s.resetInput.regs.get .sp = 0xF4#8 ∧
    s.resetInput.written.get .sp = true ∧ s.resetInput.fl = 0x00#8 ∧ s.resetInput.output = [] ∧
    s.resetInput.fault.cause.code = 0 ∧ s.resetInput.mem = s.mem ∧ s.resetInput.cfg = s.cfg ∧
    (s.runState ≠ .running → ∀ t, step s ≠ .next t) ∧
    (s.cfg.resetGpr = none → ∀ r, r ≠ .sp → s.resetInput.written.get r = false) ∧
    (∀ g, s.cfg.resetGpr = some g →
      [Reg.r0, .r1, .r2, .r3, .r4, .r5, .r6].map (fun r => (s.resetInput.written.get r, s.resetInput.regs.get r)) =
        [g.r0, g.r1, g.r2, g.r3, g.r4, g.r5, g.r6].map (fun v => (true, v)))) ∧
  (∀ (s : State) (image : List Byte), s.mem = [] → image.length ≤ 256 →
    ∀ a, (s.resetInput.loadImage image).mem.read a = image[a]?)

/-- The state after reset with nothing loaded, field by field: the values of 70_reset_and_hazards.md section 1, R0..R6 at
the model's zeros (log 1), and no byte of memory written (log 2). -/
def Obligations.StateAfterReset : Prop :=
  State.reset.runState = .running ∧ State.reset.pc = 0 ∧ State.reset.fl = 0 ∧ State.reset.output = [] ∧
  State.reset.fault.cause = .none ∧ State.reset.cfg.extAlu = false ∧ State.reset.regs.get .r7 = 0xF4#8 ∧
  (∀ r, r ≠ .r7 → State.reset.regs.get r = 0) ∧ State.reset.AllMarked ∧ (∀ a, State.reset.mem.read a = none)

/-- A program file that lists bytes as binary literals, one a line, loads as those bytes when there are at most 256, and is
MalformedProgram when there are more (70_reset_and_hazards.md section 2). -/
def Obligations.ProgramFileLoadsItsBytes : Prop :=
  ∀ bytes : List Byte,
    (bytes.length ≤ 256 → parseProgram (bytes.flatMap (fun b => binary8 b ++ ['\n'])) = .ok bytes) ∧
    (256 < bytes.length → ∃ lit, parseProgram (bytes.flatMap (fun b => binary8 b ++ ['\n'])) = .error (.malformedProgram lit))

/-! ## Invariants -/

/-- Every step keeps the invariant: PC in 0..258, FL one of four values, memory canonical, SP marked, the record and PC as
the run state says. -/
def Obligations.StepKeepsInv : Prop :=
  ∀ s t : State, s.Inv → step s = .next t → t.Inv

/-- The invariant holds after reset, and after every successful load under every configuration. -/
def Obligations.InvHoldsAfterReset : Prop :=
  State.reset.Inv ∧ ∀ (cfg : Config) (file : Option Text) (s : State), boot cfg file = .ok s → s.Inv

/-- What a step never undoes: the configuration is fixed for a run (10_state.md section 6), a written mark of a register or
a byte stays set (10_state.md sections 1 and 4), and output is only appended (10_state.md section 6). -/
def Obligations.StepOnlyAddsMarksAndOutput : Prop :=
  ∀ s t : State, step s = .next t →
    t.cfg = s.cfg ∧ (∀ r, Readable s r → Readable t r) ∧ (∀ a, s.mem.read a ≠ none → t.mem.read a ≠ none) ∧
    (∃ more, t.output = s.output ++ more ∧ more.length ≤ 1)

/-- MemRead and MemWrite: an address 0..255 can be written, reads back the byte, and no other byte changes; any other
address raises BoundsFault; the canonical form is kept (20_memory.md section 2). -/
def Obligations.MemoryAccess : Prop :=
  ∀ (m : Memory) (a : Nat) (v : Byte),
    (a ≤ 255 → ∃ m', memWrite m a v = .ok m' ∧ memRead m' a = .ok v ∧ (∀ b, b ≠ a → m'.read b = m.read b) ∧
      (m.wf → m'.wf)) ∧
    (255 < a → memWrite m a v = .error (.boundsFault a) ∧ memRead m a = .error (.boundsFault a)) ∧
    (a ≤ 255 → m.read a = none → memRead m a = .error (.unwrittenByte a))

/-! ## The instructions -/

/-- R110: HLT sets PC to 0, enters Halted and changes nothing else. -/
def Obligations.HltRule : Prop :=
  encode .hlt = [0x01#8] ∧
  ∀ s : State, exec .hlt s = .next { s with pc := 0, runState := .halted }

/-- R120: LDI writes the immediate, sets the register's mark and advances by 3, for every register (SP too) and every
byte. -/
def Obligations.LdiRule : Prop :=
  ∀ (ra : Reg) (imm : Byte) (s : State),
    encode (.ldi ra imm) = [0x82#8, ra.toByte, imm] ∧
    (∃ t, exec (.ldi ra imm) s = .next t ∧ t.regs.get ra = imm ∧ Readable t ra ∧ t.pc = s.pc + 3 ∧
      KeepsBut [ra] [] s t) ∧
    (∀ (ext : Bool) (b1 : Byte), 7 < b1.toNat → decode ext [0x82#8, b1, imm] = .error (.rejected (.illegalRegister b1)))

/-- R121: PRN appends the register's byte to the output and changes nothing else but PC; the host's text for the byte is its
decimal value and a newline. -/
def Obligations.PrnRule : Prop :=
  OneRegisterForm 0x47#8 .prn ∧
  ∀ (ra : Reg) (s : State),
    (Readable s ra → ∃ t, exec (.prn ra) s = .next t ∧ t.output = s.output ++ [s.regs.get ra] ∧ t.pc = s.pc + 2 ∧
      KeepsRegs [] s t ∧ KeepsMem [] s t ∧ t.fl = s.fl ∧ KeepsRun s t ∧
      t.outputText = s.outputText ++ Nat.toDigits 10 (val s ra) ++ ['\n']) ∧
    (¬ Readable s ra → exec (.prn ra) s = .next (s.raise (some 0x47#8) (.unwrittenReg ra)))

/-- R132: ADD, modulo 256. -/
def Obligations.AddRule : Prop :=
  TwoRegisterRule 0xA0#8 .add (fun _ _ _ => True) (fun a b => (a + b) % 256)

/-- R133: SUB, ra minus rb modulo 256. -/
def Obligations.SubRule : Prop :=
  TwoRegisterRule 0xA1#8 .sub (fun _ _ _ => True) (fun a b => (((a : Int) - (b : Int)) % 256).toNat)

/-- R134: MUL, the low 8 bits of the product. -/
def Obligations.MulRule : Prop :=
  TwoRegisterRule 0xA2#8 .mul (fun _ _ _ => True) (fun a b => (a * b) % 256)

/-- R135: CMP gives FL the value 0x01, 0x02 or 0x04 by an unsigned comparison, writes no register, and advances by 3. -/
def Obligations.CmpRule : Prop :=
  ∀ (ra rb : Reg) (s : State),
    encode (.cmp ra rb) = [0xA7#8, ra.toByte, rb.toByte] ∧
    (Readable s ra → Readable s rb → ∃ t, exec (.cmp ra rb) s = .next t ∧
      (val s ra = val s rb → t.fl = 0x01#8) ∧ (val s rb < val s ra → t.fl = 0x02#8) ∧
      (val s ra < val s rb → t.fl = 0x04#8) ∧ t.pc = s.pc + 3 ∧
      KeepsRegs [] s t ∧ KeepsMem [] s t ∧ t.output = s.output ∧ KeepsRun s t) ∧
    (¬ Readable s ra → exec (.cmp ra rb) s = .next (s.raise (some 0xA7#8) (.unwrittenReg ra))) ∧
    (Readable s ra → ¬ Readable s rb → exec (.cmp ra rb) s = .next (s.raise (some 0xA7#8) (.unwrittenReg rb))) ∧
    (∀ (ext : Bool) (b1 b2 : Byte),
      (7 < b1.toNat → decode ext [0xA7#8, b1, b2] = .error (.rejected (.illegalRegister b1))) ∧
      (b1.toNat ≤ 7 → 7 < b2.toNat → decode ext [0xA7#8, b1, b2] = .error (.rejected (.illegalRegister b2))))

/-- R140: DIV, unsigned and rounded down; a zero divisor raises DivideByZero before any write. -/
def Obligations.DivRule : Prop :=
  TwoRegisterRule 0xA3#8 .div (fun s _ b => s.cfg.extAlu = true ∧ b ≠ 0) (fun a b => a / b) ∧
  ∀ (ra rb : Reg) (s : State), s.cfg.extAlu = true → Readable s ra → Readable s rb → val s rb = 0 →
    OnlyFaults s .divideByZero (exec (.div ra rb) s)

/-- R141: AND. -/
def Obligations.AndRule : Prop :=
  TwoRegisterRule 0xA8#8 .and (fun s _ _ => s.cfg.extAlu = true) (fun a b => a &&& b)

/-- R142: OR. -/
def Obligations.OrRule : Prop :=
  TwoRegisterRule 0xAA#8 .or (fun s _ _ => s.cfg.extAlu = true) (fun a b => a ||| b)

/-- R143: XOR. -/
def Obligations.XorRule : Prop :=
  TwoRegisterRule 0xAB#8 .xor (fun s _ _ => s.cfg.extAlu = true) (fun a b => a ^^^ b)

/-- R144: NOT, 255 minus the value, and an advance by 2. -/
def Obligations.NotRule : Prop :=
  OneRegisterForm 0x69#8 .not ∧
  ∀ (ra : Reg) (s : State),
    (s.cfg.extAlu = true → Readable s ra → ∃ t, exec (.not ra) s = .next t ∧ val t ra = 255 - val s ra ∧ Readable t ra ∧
      t.pc = s.pc + 2 ∧ KeepsBut [ra] [] s t) ∧
    (¬ Readable s ra → exec (.not ra) s = .next (s.raise (some 0x69#8) (.unwrittenReg ra)))

/-- R145: SHL by the whole byte; zeros in, bits shifted out are lost. -/
def Obligations.ShlRule : Prop :=
  TwoRegisterRule 0xAC#8 .shl (fun s _ _ => s.cfg.extAlu = true) (fun a b => (a * 2 ^ b) % 256)

/-- R146: SHR by the whole byte, logical. -/
def Obligations.ShrRule : Prop :=
  TwoRegisterRule 0xAD#8 .shr (fun s _ _ => s.cfg.extAlu = true) (fun a b => a / 2 ^ b)

/-- R170: PUSH decrements SP modulo 256 and stores the register, read after that update, at the new SP. The premise that SP
has its mark holds of every state under the invariant. -/
def Obligations.PushRule : Prop :=
  OneRegisterForm 0x45#8 .push ∧
  ∀ (ra : Reg) (s : State), Readable s .sp →
    (Readable s ra → ∃ t, exec (.push ra) s = .next t ∧ val t .sp = pushAddr s ∧
      t.mem.read (pushAddr s) = some (if ra = .sp then BitVec.ofNat 8 (pushAddr s) else s.regs.get ra) ∧
      t.pc = s.pc + 2 ∧ KeepsBut [.sp] [pushAddr s] s t) ∧
    (¬ Readable s ra → exec (.push ra) s = .next (s.raise (some 0x45#8) (.unwrittenReg ra)))

/-- R171: POP reads the byte at SP into the register and then increments SP as it stands, modulo 256. -/
def Obligations.PopRule : Prop :=
  OneRegisterForm 0x46#8 .pop ∧
  ∀ (ra : Reg) (s : State), Readable s .sp →
    (∀ v, s.mem.read (val s .sp) = some v → ∃ t, exec (.pop ra) s = .next t ∧
      (ra ≠ .sp → t.regs.get ra = v ∧ val t .sp = (val s .sp + 1) % 256) ∧
      (ra = .sp → val t .sp = (v.toNat + 1) % 256) ∧
      Readable t ra ∧ t.pc = s.pc + 2 ∧ KeepsBut [ra, .sp] [] s t) ∧
    (s.mem.read (val s .sp) = none → exec (.pop ra) s = .next (s.raise (some 0x46#8) (.unwrittenByte (val s .sp))))

/-- R180 and R181: CALL pushes pc0 + 2 and jumps to the register, read after the SP update; an unwritten register faults
first, and a return address above 255 raises BoundsFault before any write. -/
def Obligations.CallRule : Prop :=
  OneRegisterForm 0x50#8 .call ∧
  ∀ (ra : Reg) (s : State), Readable s .sp →
    (Readable s ra → s.pc.toNat + 2 ≤ 255 → ∃ t, exec (.call ra) s = .next t ∧ val t .sp = pushAddr s ∧
      t.mem.read (pushAddr s) = some (BitVec.ofNat 8 (s.pc.toNat + 2)) ∧
      t.pc.toNat = (if ra = .sp then pushAddr s else val s ra) ∧ KeepsBut [.sp] [pushAddr s] s t) ∧
    (Readable s ra → 255 < s.pc.toNat + 2 →
      exec (.call ra) s = .next (s.raise (some 0x50#8) (.boundsFault (s.pc.toNat + 2)))) ∧
    (¬ Readable s ra → exec (.call ra) s = .next (s.raise (some 0x50#8) (.unwrittenReg ra)))

/-- R182: RET pops the PC, whatever put the byte there. -/
def Obligations.RetRule : Prop :=
  encode .ret = [0x11#8] ∧
  ∀ s : State, Readable s .sp →
    (∀ v, s.mem.read (val s .sp) = some v → ∃ t, exec .ret s = .next t ∧ t.pc.toNat = v.toNat ∧
      val t .sp = (val s .sp + 1) % 256 ∧ KeepsBut [.sp] [] s t) ∧
    (s.mem.read (val s .sp) = none → exec .ret s = .next (s.raise (some 0x11#8) (.unwrittenByte (val s .sp))))

/-- R183: JMP. -/
def Obligations.JmpRule : Prop :=
  OneRegisterForm 0x54#8 .jmp ∧
  ∀ (ra : Reg) (s : State),
    (Readable s ra → ∃ t, exec (.jmp ra) s = .next t ∧ t.pc.toNat = val s ra ∧ KeepsBut [] [] s t) ∧
    (¬ Readable s ra → exec (.jmp ra) s = .next (s.raise (some 0x54#8) (.unwrittenReg ra)))

/-- R184: JEQ is taken when bit E of FL is 1, whatever G and L are; the register is read only then. -/
def Obligations.JeqRule : Prop :=
  OneRegisterForm 0x55#8 .jeq ∧
  ∀ (ra : Reg) (s : State),
    (s.fl.getLsbD 0 = true → Readable s ra →
      ∃ t, exec (.jeq ra) s = .next t ∧ t.pc.toNat = val s ra ∧ KeepsBut [] [] s t) ∧
    (s.fl.getLsbD 0 = false → ∃ t, exec (.jeq ra) s = .next t ∧ t.pc = s.pc + 2 ∧ KeepsBut [] [] s t) ∧
    (s.fl.getLsbD 0 = true → ¬ Readable s ra → exec (.jeq ra) s = .next (s.raise (some 0x55#8) (.unwrittenReg ra)))

/-- R185: JNE is taken when bit E of FL is 0, also before any CMP; the register is read only then. -/
def Obligations.JneRule : Prop :=
  OneRegisterForm 0x56#8 .jne ∧
  ∀ (ra : Reg) (s : State),
    (s.fl.getLsbD 0 = false → Readable s ra →
      ∃ t, exec (.jne ra) s = .next t ∧ t.pc.toNat = val s ra ∧ KeepsBut [] [] s t) ∧
    (s.fl.getLsbD 0 = true → ∃ t, exec (.jne ra) s = .next t ∧ t.pc = s.pc + 2 ∧ KeepsBut [] [] s t) ∧
    (s.fl.getLsbD 0 = false → ¬ Readable s ra → exec (.jne ra) s = .next (s.raise (some 0x56#8) (.unwrittenReg ra)))

/-! ## Laws over two steps, and hangs -/

/-- R172: a step of PUSH Rn and a step of the POP Rn after it leave every register, SP included, as it was, and the pushed
byte at the address below SP. The push must not fall on the POP itself (R170: a push may overwrite code). -/
def Obligations.PushThenPopIsTheIdentity : Prop :=
  ∀ (r : Reg) (s : State), s.runState = .running → Readable s .sp → Readable s r →
    BytesAtPc s (encode (.push r) ++ encode (.pop r)) →
    pushAddr s ≠ s.pc.toNat + 2 → pushAddr s ≠ s.pc.toNat + 3 →
    ∃ t u, step s = .next t ∧ step t = .next u ∧ (∀ q, u.regs.get q = s.regs.get q) ∧
      u.mem.read (pushAddr s) = some (if r = .sp then BitVec.ofNat 8 (pushAddr s) else s.regs.get r) ∧
      u.pc.toNat = s.pc.toNat + 4

/-- R186: a step of CALL Rn at pc0 ≤ 253 pushes pc0 + 2; when the byte at the target is RET, the next step returns to
pc0 + 2 with SP and every other register as before the CALL. -/
def Obligations.CallThenRetReturns : Prop :=
  ∀ (r : Reg) (s : State), s.runState = .running → s.pc.toNat ≤ 253 → Readable s .sp → Readable s r →
    BytesAtPc s (encode (.call r)) →
    ∃ t, step s = .next t ∧ t.mem.read (pushAddr s) = some (BitVec.ofNat 8 (s.pc.toNat + 2)) ∧
      (t.mem.read t.pc.toNat = some 0x11#8 →
        ∃ u, step t = .next u ∧ u.pc.toNat = s.pc.toNat + 2 ∧ ∀ q, u.regs.get q = s.regs.get q)

/-- A JMP whose target is its own address runs for ever: its step leads back to the same Running state, so the run never
ends, never leaves that state and never faults (44_control.md R183's corner case, 60_exceptions.md R218). -/
def Obligations.JumpToItselfRunsForever : Prop :=
  ∀ (r : Reg) (s : State), s.runState = .running → Readable s r → BytesAtPc s (encode (.jmp r)) →
    val s r = s.pc.toNat → step s = .next s ∧ (∀ t, Reaches s t → t = s) ∧ s.NeverFaults

/-! ## Frames -/

/-- The frame of the instructions that write one register: LDI, ADD, SUB, MUL, DIV, AND, OR, XOR, NOT, SHL, SHR. -/
def Obligations.RegisterWriterFrame : Prop :=
  ∀ (i : Instr) (ra rb : Reg) (imm : Byte) (s t : State),
    i ∈ [.ldi ra imm, .add ra rb, .sub ra rb, .mul ra rb, .div ra rb, .and ra rb, .or ra rb, .xor ra rb, .not ra,
      .shl ra rb, .shr ra rb] →
    exec i s = .next t →
    KeepsRegs [ra] s t ∧ (∀ a, t.mem.read a = s.mem.read a) ∧ t.fl = s.fl ∧ t.output = s.output ∧ t.cfg = s.cfg ∧
      (t.runState ≠ .faulted → KeepsRun s t)

/-- The frame of the instructions that write no register: HLT, PRN, CMP, JMP, JEQ, JNE. FL changes only by CMP, the output
only by PRN, the run state only by HLT. -/
def Obligations.NoRegisterFrame : Prop :=
  ∀ (i : Instr) (ra rb : Reg) (s t : State),
    i ∈ [.hlt, .prn ra, .cmp ra rb, .jmp ra, .jeq ra, .jne ra] → exec i s = .next t →
    KeepsRegs [] s t ∧ (∀ a, t.mem.read a = s.mem.read a) ∧ t.cfg = s.cfg ∧
      (i ≠ .cmp ra rb → t.fl = s.fl) ∧ (i ≠ .prn ra → t.output = s.output) ∧
      (i ≠ .hlt → t.runState ≠ .faulted → KeepsRun s t) ∧ (i = .hlt → t.fault = s.fault)

/-- The frame of PUSH and CALL: no register but SP changes, and no byte but the one at SP - 1 modulo 256, the address that
they store to. -/
def Obligations.StackWriterFrame : Prop :=
  ∀ (i : Instr) (ra : Reg) (s t : State), i ∈ [.push ra, .call ra] → exec i s = .next t →
    KeepsRegs [.sp] s t ∧ (∀ a, a ≠ (s.regs.get .sp - 1).toNat → t.mem.read a = s.mem.read a) ∧
      t.fl = s.fl ∧ t.output = s.output ∧ t.cfg = s.cfg ∧ (t.runState ≠ .faulted → KeepsRun s t)

/-- The frame of POP and RET: no register changes but SP and POP's destination, and no byte of memory. -/
def Obligations.StackReaderFrame : Prop :=
  ∀ (i : Instr) (ra : Reg) (s t : State), i ∈ [.pop ra, .ret] → exec i s = .next t →
    KeepsRegs (if i = .ret then [.sp] else [ra, .sp]) s t ∧ (∀ a, t.mem.read a = s.mem.read a) ∧
      t.fl = s.fl ∧ t.output = s.output ∧ t.cfg = s.cfg ∧ (t.runState ≠ .faulted → KeepsRun s t)

/-- R29: only CMP writes FL, and after a CMP that completes exactly one of E, G and L is set and bits 7:3 are 0; only JEQ and
JNE read FL, and only its bit E: another FL leaves every other instruction's effect the same, and one with the same E leaves
theirs the same. FL is 0 after reset. -/
def Obligations.FlagsRegister : Prop :=
  (∀ (i : Instr) (s t : State), exec i s = .next t → (∀ ra rb, i ≠ .cmp ra rb) → t.fl = s.fl) ∧
  (∀ (ra rb : Reg) (s t : State), exec (.cmp ra rb) s = .next t → t.runState ≠ .faulted →
    t.fl = 0x01#8 ∨ t.fl = 0x02#8 ∨ t.fl = 0x04#8) ∧
  (∀ (i : Instr) (s : State) (fl : Byte),
    ((∀ ra, i ≠ .jeq ra ∧ i ≠ .jne ra) ∨ fl.getLsbD 0 = s.fl.getLsbD 0) → (∀ ra rb, i ≠ .cmp ra rb) →
    exec i (s.setFl fl) = mapNext (fun t => t.setFl fl) (exec i s)) ∧
  (∀ (ra rb : Reg) (s : State) (fl : Byte), Readable s ra → Readable s rb →
    exec (.cmp ra rb) (s.setFl fl) = exec (.cmp ra rb) s) ∧
  State.reset.fl = 0x00#8

/-! ## The host's reading -/

/-- The exit status and the diagnostic (60_exceptions.md section 3): 0 for Halted, 1 for Faulted, none while Running; 1 and
2 for the two load failures; and the fixed message of UnknownOpcode. -/
def Obligations.HostReadsTheFinalState : Prop :=
  (∀ s : State, (s.runState = .halted → s.exitStatus = some 0) ∧ (s.runState = .faulted → s.exitStatus = some 1) ∧
    (s.runState = .running → s.exitStatus = none)) ∧
  (∀ lit, (LoadError.malformedProgram lit).exitStatus = 1) ∧ LoadError.programNotFound.exitStatus = 2 ∧
  (∀ (s : State) (op : Byte), (s.raise (some op) (.unknownOpcode op)).diagnostic =
    some ("Unknown opcode ".toList ++ binary8 op ++ " at address ".toList ++ Nat.toDigits 10 s.pc.toNat))

/-! ## The point on which two rules differ -/

/-- DIV by zero: the step of the instruction takes DivideByZero with the opcode byte 0xA3 and pc0 in the record, and its
`fault_info` is pc0 where the configuration follows the pseudocode of DIV (42_alu.md section 3) and rb where it follows the
table of causes (60_exceptions.md section 1). That both readings are modelled is the model's choice (log 5). -/
def Obligations.DivideByZeroInfo : Prop :=
  ∀ (ra rb : Reg) (s : State), s.runState = .running → s.cfg.extAlu = true → BytesAtPc s (encode (.div ra rb)) →
    Readable s ra → Readable s rb → val s rb = 0 →
    ∃ t, step s = .next t ∧ OnlyFaults s .divideByZero (step s) ∧ t.fault.opcode = some 0xA3#8 ∧
      (s.cfg.divideInfo = .faultingPc → t.fault.info.value = some s.pc.toNat) ∧
      (s.cfg.divideInfo = .divisorIndex → t.fault.info.value = some rb.toByte.toNat)
end

