-- ==== Sys2Proof/Laws/Decode.lean ====
section
/-! SUPPORT. The laws of the decoder's parts: register indices, rows of the maps, the operands of an instruction. -/

namespace Sys2Proof

@[simp] theorem Reg.ofByte_toByte (r : Reg) : Reg.ofByte r.toByte = some r := by
  cases r <;> rfl

theorem Reg.toByte_toNat_le (r : Reg) : r.toByte.toNat ≤ 7 := by
  cases r <;> decide

theorem Reg.toByte_of_ofByte {b : Byte} {r : Reg} (h : Reg.ofByte b = some r) : r.toByte = b := by
  unfold Reg.ofByte at h
  apply BitVec.eq_of_toNat_eq
  split at h <;> simp_all <;> subst h <;> rfl

theorem Reg.ofByte_eq_none_iff {b : Byte} : Reg.ofByte b = none ↔ 7 < b.toNat := by
  unfold Reg.ofByte
  split <;> simp_all
  omega

@[simp] theorem regOperand_toByte {ε : Type} (reject : Reject → ε) (r : Reg) :
    regOperand reject r.toByte = .ok r := by
  simp [regOperand]

theorem regOperand_illegal {ε : Type} (reject : Reject → ε) {b : Byte} (h : 7 < b.toNat) :
    regOperand reject b = .error (reject (.illegalRegister b)) := by
  simp [regOperand, Reg.ofByte_eq_none_iff.2 h]

/-- Everything the register check can answer. -/
theorem regOperand_cases {ε : Type} (reject : Reject → ε) (b : Byte) :
    (∃ r, regOperand reject b = .ok r ∧ r.toByte = b) ∨
      (7 < b.toNat ∧ regOperand reject b = .error (reject (.illegalRegister b))) := by
  by_cases h : 7 < b.toNat
  · exact .inr ⟨h, regOperand_illegal reject h⟩
  · left
    cases hr : Reg.ofByte b with
    | none => exact absurd (Reg.ofByte_eq_none_iff.1 hr) h
    | some r => exact ⟨r, by simp [regOperand, hr], Reg.toByte_of_ofByte hr⟩

/-- The operands that an instruction's opcode asks for, with the constructor it stands for. -/
def Instr.entry : Instr → Entry
  | .hlt => .none .hlt
  | .ldi .. => .regImm .ldi
  | .prn .. => .reg .prn
  | .add .. => .regReg .add
  | .sub .. => .regReg .sub
  | .mul .. => .regReg .mul
  | .cmp .. => .regReg .cmp
  | .push .. => .reg .push
  | .pop .. => .reg .pop
  | .call .. => .reg .call
  | .ret => .none .ret
  | .jmp .. => .reg .jmp
  | .jeq .. => .reg .jeq
  | .jne .. => .reg .jne
  | .div .. => .regReg .div
  | .and .. => .regReg .and
  | .or .. => .regReg .or
  | .xor .. => .regReg .xor
  | .not .. => .reg .not
  | .shl .. => .regReg .shl
  | .shr .. => .regReg .shr

/-- The active map holds an instruction's opcode exactly when the instruction is well-formed. -/
theorem activeEntry_opcode (ext : Bool) (i : Instr) :
    activeEntry ext i.opcode = if i.wellFormed ext then some i.entry else none := by
  cases ext <;> cases i <;> rfl

/-- What an entry of the active map says: its opcode is that of the instructions it makes, and they are well-formed. -/
def Entry.Sound (ext : Bool) (op : Byte) : Entry → Prop
  | .none i => i.opcode = op ∧ i.operandBytes = [] ∧ i.wellFormed ext = true
  | .reg mk => ∀ ra, (mk ra).opcode = op ∧ (mk ra).operandBytes = [ra.toByte] ∧ (mk ra).wellFormed ext = true
  | .regReg mk => ∀ ra rb,
      (mk ra rb).opcode = op ∧ (mk ra rb).operandBytes = [ra.toByte, rb.toByte] ∧ (mk ra rb).wellFormed ext = true
  | .regImm mk => ∀ ra imm,
      (mk ra imm).opcode = op ∧ (mk ra imm).operandBytes = [ra.toByte, imm] ∧ (mk ra imm).wellFormed ext = true

theorem findRow_mem {op : Byte} {rows : List Row} {row : Row} (h : findRow op rows = some row) :
    row ∈ rows ∧ row.opcode = op := by
  induction rows with
  | nil => simp [findRow] at h
  | cons d rows ih =>
    simp only [findRow] at h
    split at h
    · next hd => cases h; simp [hd]
    · exact ⟨List.mem_cons_of_mem _ (ih h).1, (ih h).2⟩

theorem activeEntry_sound {ext : Bool} {op : Byte} {e : Entry} (h : activeEntry ext op = some e) : e.Sound ext op := by
  simp only [activeEntry, Option.map_eq_some_iff] at h
  obtain ⟨row, hrow, rfl⟩ := h
  obtain ⟨hmem, rfl⟩ := findRow_mem hrow
  cases ext <;> simp only [activeMap, baseMap, extMap, if_true, if_false, Bool.false_eq_true, List.cons_append,
    List.nil_append, List.mem_cons, List.not_mem_nil, or_false] at hmem <;>
    (rcases hmem with rfl | rfl | rfl | rfl | rfl | rfl | rfl | rfl | rfl | rfl | rfl | rfl | rfl | rfl | rfl | rfl |
      rfl | rfl | rfl | rfl | rfl) <;>
    first | exact ⟨rfl, rfl, rfl⟩ | exact fun _ => ⟨rfl, rfl, rfl⟩ | exact fun _ _ => ⟨rfl, rfl, rfl⟩

theorem operandCount_opcode (i : Instr) : operandCount i.opcode = i.operandBytes.length := by
  cases i <;> simp [operandCount, Instr.opcode, Instr.operandBytes]

theorem lengthOf_opcode (i : Instr) : lengthOf i.opcode = (encode i).length := by
  rw [lengthOf, operandCount_opcode, encode, List.length_cons, Nat.add_comm]

/-- Everything decoding after the opcode can answer: an instruction whose operand bytes are those read, or the failure
of a read, or a rejection. -/
theorem decodeOperands_ok {ε : Type} {reject : Reject → ε} {read : Nat → Except ε Byte} {ext : Bool} {op : Byte}
    {i : Instr} (h : decodeOperands reject read ext op = .ok i) :
    i.wellFormed ext = true ∧ i.opcode = op ∧
      ∀ k, (hk : k < i.operandBytes.length) → read (k + 1) = .ok i.operandBytes[k] := by
  unfold decodeOperands at h
  split at h
  · simp at h
  · next j he =>
    have hs := activeEntry_sound he
    cases h
    exact ⟨hs.2.2, hs.1, fun k hk => by simp [hs.2.1] at hk⟩
  · next mk he =>
    have hs := activeEntry_sound he
    cases h1 : read 1 with
    | error e => rw [h1] at h; cases h
    | ok b1 =>
      rw [h1] at h
      rcases regOperand_cases reject b1 with ⟨ra, hra, rfl⟩ | ⟨-, hra⟩
      · simp only [bind, Except.bind, pure, Except.pure, hra, Except.ok.injEq] at h
        subst h
        refine ⟨(hs ra).2.2, (hs ra).1, fun k hk => ?_⟩
        simp only [(hs ra).2.1, List.length_singleton] at hk ⊢
        obtain rfl : k = 0 := by omega
        simpa using h1
      · simp [bind, Except.bind, hra] at h
  · next mk he =>
    have hs := activeEntry_sound he
    cases h1 : read 1 with
    | error e => rw [h1] at h; cases h
    | ok b1 =>
      cases h2 : read 2 with
      | error e => rw [h1, h2] at h; cases h
      | ok b2 =>
        rw [h1, h2] at h
        rcases regOperand_cases reject b1 with ⟨ra, hra, rfl⟩ | ⟨-, hra⟩
        · rcases regOperand_cases reject b2 with ⟨rb, hrb, rfl⟩ | ⟨-, hrb⟩
          · simp only [bind, Except.bind, pure, Except.pure, hra, hrb, Except.ok.injEq] at h
            subst h
            refine ⟨(hs ra rb).2.2, (hs ra rb).1, fun k hk => ?_⟩
            simp only [(hs ra rb).2.1, List.length_cons, List.length_nil] at hk ⊢
            match k, hk with
            | 0, _ => simpa using h1
            | 1, _ => simpa using h2
          · simp [bind, Except.bind, hrb] at h
        · simp [bind, Except.bind, hra] at h
  · next mk he =>
    have hs := activeEntry_sound he
    cases h1 : read 1 with
    | error e => rw [h1] at h; cases h
    | ok b1 =>
      cases h2 : read 2 with
      | error e => rw [h1, h2] at h; cases h
      | ok b2 =>
        rw [h1, h2] at h
        rcases regOperand_cases reject b1 with ⟨ra, hra, rfl⟩ | ⟨-, hra⟩
        · simp only [bind, Except.bind, pure, Except.pure, hra, Except.ok.injEq] at h
          subst h
          refine ⟨(hs ra b2).2.2, (hs ra b2).1, fun k hk => ?_⟩
          simp only [(hs ra b2).2.1, List.length_cons, List.length_nil] at hk ⊢
          match k, hk with
          | 0, _ => simpa using h1
          | 1, _ => simpa using h2
        · simp [bind, Except.bind, hra] at h

/-- The converse: when the reads answer a well-formed instruction's operand bytes, decoding after its opcode gives it. -/
theorem decodeOperands_of_reads {ε : Type} (reject : Reject → ε) {read : Nat → Except ε Byte} {ext : Bool} {i : Instr}
    (hw : i.wellFormed ext = true)
    (h : ∀ k, (hk : k < i.operandBytes.length) → read (k + 1) = .ok i.operandBytes[k]) :
    decodeOperands reject read ext i.opcode = .ok i := by
  have ha := activeEntry_opcode ext i
  rw [hw, if_pos rfl] at ha
  cases i <;> simp only [Instr.entry] at ha <;> simp only [Instr.operandBytes, List.length_cons, List.length_nil] at h <;>
    simp only [decodeOperands, ha] <;> try rfl
  all_goals
    have h1 := h 0 (by decide)
    simp only [List.getElem_cons_zero, Nat.zero_add] at h1
    simp only [h1, bind, Except.bind, regOperand_toByte, pure, Except.pure]
  all_goals
    have h2 := h 1 (by decide)
    simp only [List.getElem_cons_succ, List.getElem_cons_zero, Nat.reduceAdd] at h2
    simp only [h2, regOperand_toByte]

end Sys2Proof
end

