-- ==== Sys2Proof/Laws/Memory.lean ====
section
/-! SUPPORT. The laws of memory: read after write, and the canonical form (20_memory.md R54, R60; 10_state.md R31). -/

namespace Sys2Proof.Machine

@[simp] theorem Memory.read_nil (a : Nat) : Memory.read a [] = none := rfl

theorem Memory.read_cons (a : Nat) (c : Host.Cell) (m : Memory) :
    Memory.read a (c :: m) = if c.1 = a then some c.2 else Memory.read a m := rfl

@[simp] theorem Memory.read_write_self (a : Nat) (v : Byte) (m : Memory) : (m.write a v).read a = some v := by
  induction m with
  | nil => simp [Memory.write, Memory.read]
  | cons c m ih =>
    simp only [Memory.write]
    split
    · simp [Memory.read]
    · split
      · simp [Memory.read]
      · next h => simp [Memory.read, ih, Ne.symm h]

theorem Memory.read_write_ne {a b : Nat} (v : Byte) (m : Memory) (h : b ≠ a) : (m.write a v).read b = m.read b := by
  induction m with
  | nil => simp [Memory.write, Memory.read, Ne.symm h]
  | cons c m ih =>
    simp only [Memory.write]
    split
    · simp [Memory.read, Ne.symm h]
    · split
      · next h2 => subst h2; simp [Memory.read, Ne.symm h]
      · simp [Memory.read, ih]

theorem Memory.read_write (a b : Nat) (v : Byte) (m : Memory) :
    (m.write a v).read b = if b = a then some v else m.read b := by
  by_cases h : b = a
  · subst h; simp
  · simp [h, Memory.read_write_ne]

/-- A write lists the written cell and otherwise only cells that were there. -/
theorem Memory.mem_write {a : Nat} {v : Byte} {m : Memory} {c : Host.Cell} (h : c ∈ m.write a v) :
    c = (a, v) ∨ c ∈ m := by
  induction m with
  | nil => simpa [Memory.write] using h
  | cons d m ih =>
    simp only [Memory.write] at h
    split at h
    · simpa using h
    · split at h
      · rcases List.mem_cons.1 h with h | h <;> simp [h]
      · rcases List.mem_cons.1 h with h | h
        · simp [h]
        · rcases ih h with h | h <;> simp [h]

theorem Memory.wf_nil : Memory.wf [] := by decide

/-- A write inside 0..255 keeps the canonical form. -/
theorem Memory.wf_write {a : Nat} (v : Byte) {m : Memory} (ha : a < 256) (h : m.wf) : (m.write a v).wf := by
  refine ⟨?_, fun c hc => ?_⟩
  · have hp := h.1
    clear h
    induction m with
    | nil => simp [Memory.write]
    | cons d m ih =>
      have ⟨hd, hm⟩ := List.pairwise_cons.1 hp
      simp only [Memory.write]
      split
      · next hlt =>
        refine List.pairwise_cons.2 ⟨fun x hx => ?_, hp⟩
        rcases List.mem_cons.1 hx with rfl | hx
        · exact hlt
        · exact lt_trans hlt (hd x hx)
      · split
        · next h2 => exact List.pairwise_cons.2 ⟨fun x hx => h2 ▸ hd x hx, hm⟩
        · next h1 h2 =>
          refine List.pairwise_cons.2 ⟨fun x hx => ?_, ih hm⟩
          rcases Memory.mem_write hx with rfl | hx
          · simp; omega
          · exact hd x hx
  · rcases Memory.mem_write hc with rfl | hc
    · exact ha
    · exact h.2 c hc

/-- A byte that is written stays written. -/
theorem Memory.read_write_mono {a b : Nat} (v : Byte) {m : Memory} (h : m.read b ≠ none) : (m.write a v).read b ≠ none := by
  rw [Memory.read_write]; split <;> simp [h]

/-- In a canonical memory, a listed cell is what its address reads as. -/
theorem Memory.read_of_mem {m : Memory} (h : m.wf) {c : Host.Cell} (hc : c ∈ m) : m.read c.1 = some c.2 := by
  have hp := h.1
  clear h
  induction m with
  | nil => simp at hc
  | cons d m ih =>
    have ⟨hd, hm⟩ := List.pairwise_cons.1 hp
    rcases List.mem_cons.1 hc with rfl | hc
    · simp [Memory.read]
    · have := hd c hc
      simp [Memory.read, ih hc hm, show d.1 ≠ c.1 by omega]

/-- Everything `memRead` can answer. -/
theorem memRead_eq (m : Memory) (a : Nat) :
    memRead m a = if a < 256 then (match m.read a with | some v => .ok v | none => .error (.unwrittenByte a))
      else .error (.boundsFault a) := rfl

/-- Everything `memWrite` can answer. -/
theorem memWrite_eq (m : Memory) (a : Nat) (v : Byte) :
    memWrite m a v = if a < 256 then .ok (m.write a v) else .error (.boundsFault a) := rfl

theorem memRead_ok_iff {m : Memory} {a : Nat} {v : Byte} : memRead m a = .ok v ↔ a < 256 ∧ m.read a = some v := by
  rw [memRead_eq]
  split
  · next h => cases m.read a <;> simp [h]
  · next h => simp [h]

@[simp] theorem memRead_byte {m : Memory} {a v : Byte} (h : m.read a.toNat = some v) : memRead m a.toNat = .ok v :=
  memRead_ok_iff.2 ⟨a.isLt, h⟩

@[simp] theorem memRead_unwritten {m : Memory} {a : Byte} (h : m.read a.toNat = none) :
    memRead m a.toNat = .error (.unwrittenByte a.toNat) := by
  rw [memRead_eq]; simp [h, a.isLt]

/-- A store at a byte address never faults (43_stack.md R170). -/
@[simp] theorem memWrite_byte (m : Memory) (a v : Byte) : memWrite m a.toNat v = .ok (m.write a.toNat v) := by
  have : a.toNat < 256 := a.isLt
  simp [memWrite, Config.memSize, this]

/-- What a byte placed at `a`, `a + 1`, … reads as. -/
theorem Memory.read_place (a b : Nat) (bytes : List Byte) (m : Memory) (h : a + bytes.length ≤ 256) :
    (m.place a bytes).read b = if a ≤ b ∧ b < a + bytes.length then bytes[b - a]? else m.read b := by
  induction bytes generalizing a m with
  | nil => rw [if_neg (by simp)]; rfl
  | cons x xs ih =>
    simp only [List.length_cons] at h
    have ha : a < 256 := by omega
    simp only [Memory.place, Config.memSize, ha, if_true]
    rw [ih (a + 1) _ (by omega), Memory.read_write]
    by_cases h1 : b = a
    · subst h1; simp
    · by_cases h2 : a + 1 ≤ b ∧ b < a + 1 + xs.length
      · rw [if_pos h2, if_pos (by simp; omega), show b - a = b - (a + 1) + 1 by omega]; simp
      · rw [if_neg h2, if_neg h1, if_neg (by simp; omega)]

theorem Memory.wf_place (a : Nat) (bytes : List Byte) {m : Memory} (h : m.wf) : (m.place a bytes).wf := by
  induction bytes generalizing a m with
  | nil => exact h
  | cons x xs ih =>
    simp only [Memory.place]
    split
    · next ha => exact ih _ (Memory.wf_write x ha h)
    · exact ih _ h

theorem Memory.addr_ofBytesFrom {a : Nat} {bytes : List Byte} {c : Host.Cell} (h : c ∈ Memory.ofBytesFrom a bytes) :
    a ≤ c.1 ∧ c.1 < 256 := by
  induction bytes generalizing a with
  | nil => simp [Memory.ofBytesFrom] at h
  | cons x xs ih =>
    simp only [Memory.ofBytesFrom] at h
    split at h
    · next ha =>
      rcases List.mem_cons.1 h with rfl | h
      · exact ⟨le_refl _, ha⟩
      · have := ih h; omega
    · simp at h

theorem Memory.wf_ofBytesFrom (a : Nat) (bytes : List Byte) : (Memory.ofBytesFrom a bytes).wf := by
  refine ⟨?_, fun c hc => (Memory.addr_ofBytesFrom hc).2⟩
  induction bytes generalizing a with
  | nil => simp [Memory.ofBytesFrom]
  | cons x xs ih =>
    simp only [Memory.ofBytesFrom]
    split
    · exact List.pairwise_cons.2 ⟨fun y hy => (Memory.addr_ofBytesFrom hy).1, ih (a + 1)⟩
    · simp

end Sys2Proof.Machine
end

