-- ==== Sys2Proof/Laws/State.lean ====
section
/-! SUPPORT. One lemma for each field under each update of the state, so that no proof unfolds a record update. -/

namespace Sys2Proof.Machine

variable (s : State)

/-! ## setPc -/

@[simp] theorem State.setPc_cfg (p : Pc) : (s.setPc p).cfg = s.cfg := rfl
@[simp] theorem State.setPc_regs (p : Pc) : (s.setPc p).regs = s.regs := rfl
@[simp] theorem State.setPc_written (p : Pc) : (s.setPc p).written = s.written := rfl
@[simp] theorem State.setPc_pc (p : Pc) : (s.setPc p).pc = p := rfl
@[simp] theorem State.setPc_fl (p : Pc) : (s.setPc p).fl = s.fl := rfl
@[simp] theorem State.setPc_mem (p : Pc) : (s.setPc p).mem = s.mem := rfl
@[simp] theorem State.setPc_runState (p : Pc) : (s.setPc p).runState = s.runState := rfl
@[simp] theorem State.setPc_fault (p : Pc) : (s.setPc p).fault = s.fault := rfl
@[simp] theorem State.setPc_output (p : Pc) : (s.setPc p).output = s.output := rfl

/-! ## setFl -/

@[simp] theorem State.setFl_cfg (v : Byte) : (s.setFl v).cfg = s.cfg := rfl
@[simp] theorem State.setFl_regs (v : Byte) : (s.setFl v).regs = s.regs := rfl
@[simp] theorem State.setFl_written (v : Byte) : (s.setFl v).written = s.written := rfl
@[simp] theorem State.setFl_pc (v : Byte) : (s.setFl v).pc = s.pc := rfl
@[simp] theorem State.setFl_fl (v : Byte) : (s.setFl v).fl = v := rfl
@[simp] theorem State.setFl_mem (v : Byte) : (s.setFl v).mem = s.mem := rfl
@[simp] theorem State.setFl_runState (v : Byte) : (s.setFl v).runState = s.runState := rfl
@[simp] theorem State.setFl_fault (v : Byte) : (s.setFl v).fault = s.fault := rfl
@[simp] theorem State.setFl_output (v : Byte) : (s.setFl v).output = s.output := rfl

/-! ## setMem -/

@[simp] theorem State.setMem_cfg (m : Memory) : (s.setMem m).cfg = s.cfg := rfl
@[simp] theorem State.setMem_regs (m : Memory) : (s.setMem m).regs = s.regs := rfl
@[simp] theorem State.setMem_written (m : Memory) : (s.setMem m).written = s.written := rfl
@[simp] theorem State.setMem_pc (m : Memory) : (s.setMem m).pc = s.pc := rfl
@[simp] theorem State.setMem_fl (m : Memory) : (s.setMem m).fl = s.fl := rfl
@[simp] theorem State.setMem_mem (m : Memory) : (s.setMem m).mem = m := rfl
@[simp] theorem State.setMem_runState (m : Memory) : (s.setMem m).runState = s.runState := rfl
@[simp] theorem State.setMem_fault (m : Memory) : (s.setMem m).fault = s.fault := rfl
@[simp] theorem State.setMem_output (m : Memory) : (s.setMem m).output = s.output := rfl

/-! ## emit -/

@[simp] theorem State.emit_cfg (v : Byte) : (s.emit v).cfg = s.cfg := rfl
@[simp] theorem State.emit_regs (v : Byte) : (s.emit v).regs = s.regs := rfl
@[simp] theorem State.emit_written (v : Byte) : (s.emit v).written = s.written := rfl
@[simp] theorem State.emit_pc (v : Byte) : (s.emit v).pc = s.pc := rfl
@[simp] theorem State.emit_fl (v : Byte) : (s.emit v).fl = s.fl := rfl
@[simp] theorem State.emit_mem (v : Byte) : (s.emit v).mem = s.mem := rfl
@[simp] theorem State.emit_runState (v : Byte) : (s.emit v).runState = s.runState := rfl
@[simp] theorem State.emit_fault (v : Byte) : (s.emit v).fault = s.fault := rfl
@[simp] theorem State.emit_output (v : Byte) : (s.emit v).output = s.output ++ [v] := rfl

/-! ## advance -/

@[simp] theorem State.advance_cfg (n : Pc) : (s.advance n).cfg = s.cfg := rfl
@[simp] theorem State.advance_regs (n : Pc) : (s.advance n).regs = s.regs := rfl
@[simp] theorem State.advance_written (n : Pc) : (s.advance n).written = s.written := rfl
@[simp] theorem State.advance_pc (n : Pc) : (s.advance n).pc = s.pc + n := rfl
@[simp] theorem State.advance_fl (n : Pc) : (s.advance n).fl = s.fl := rfl
@[simp] theorem State.advance_mem (n : Pc) : (s.advance n).mem = s.mem := rfl
@[simp] theorem State.advance_runState (n : Pc) : (s.advance n).runState = s.runState := rfl
@[simp] theorem State.advance_fault (n : Pc) : (s.advance n).fault = s.fault := rfl
@[simp] theorem State.advance_output (n : Pc) : (s.advance n).output = s.output := rfl

/-! ## writeReg -/

@[simp] theorem State.writeReg_cfg (r : Reg) (v : Byte) : (s.writeReg r v).cfg = s.cfg := rfl
@[simp] theorem State.writeReg_regs (r : Reg) (v : Byte) : (s.writeReg r v).regs = s.regs.set r v := rfl
@[simp] theorem State.writeReg_written (r : Reg) (v : Byte) : (s.writeReg r v).written = s.written.set r true := rfl
@[simp] theorem State.writeReg_pc (r : Reg) (v : Byte) : (s.writeReg r v).pc = s.pc := rfl
@[simp] theorem State.writeReg_fl (r : Reg) (v : Byte) : (s.writeReg r v).fl = s.fl := rfl
@[simp] theorem State.writeReg_mem (r : Reg) (v : Byte) : (s.writeReg r v).mem = s.mem := rfl
@[simp] theorem State.writeReg_runState (r : Reg) (v : Byte) : (s.writeReg r v).runState = s.runState := rfl
@[simp] theorem State.writeReg_fault (r : Reg) (v : Byte) : (s.writeReg r v).fault = s.fault := rfl
@[simp] theorem State.writeReg_output (r : Reg) (v : Byte) : (s.writeReg r v).output = s.output := rfl

/-! ## raise -/

@[simp] theorem State.raise_cfg (op : Option Byte) (t : Trap) : (s.raise op t).cfg = s.cfg := rfl
@[simp] theorem State.raise_regs (op : Option Byte) (t : Trap) : (s.raise op t).regs = s.regs := rfl
@[simp] theorem State.raise_written (op : Option Byte) (t : Trap) : (s.raise op t).written = s.written := rfl
@[simp] theorem State.raise_pc (op : Option Byte) (t : Trap) : (s.raise op t).pc = s.pc := rfl
@[simp] theorem State.raise_fl (op : Option Byte) (t : Trap) : (s.raise op t).fl = s.fl := rfl
@[simp] theorem State.raise_mem (op : Option Byte) (t : Trap) : (s.raise op t).mem = s.mem := rfl
@[simp] theorem State.raise_runState (op : Option Byte) (t : Trap) : (s.raise op t).runState = .faulted := rfl
@[simp] theorem State.raise_fault (op : Option Byte) (t : Trap) :
    (s.raise op t).fault = ⟨t.cause, s.pc, op, t.info s.cfg.divideInfo s.pc⟩ := rfl
@[simp] theorem State.raise_output (op : Option Byte) (t : Trap) : (s.raise op t).output = s.output := rfl

/-! ## Registers -/

@[simp] theorem Regs.get_set_self {α : Type} (f : Regs α) (r : Reg) (v : α) : (f.set r v).get r = v := by
  cases r <;> rfl

theorem Regs.get_set_ne {α : Type} (f : Regs α) {r q : Reg} (v : α) (h : q ≠ r) : (f.set r v).get q = f.get q := by
  cases r <;> cases q <;> first | rfl | exact absurd rfl h

/-- Reading after a write: the written register gives the value, every other one its own. -/
theorem Regs.get_set {α : Type} (f : Regs α) (r q : Reg) (v : α) :
    (f.set r v).get q = if q = r then v else f.get q := by
  by_cases h : q = r
  · subst h; simp
  · simp [h, Regs.get_set_ne]

/-- A register file is determined by its entries. -/
theorem Regs.ext_get {α : Type} {f g : Regs α} (h : ∀ r, f.get r = g.get r) : f = g := by
  cases f; cases g
  have := h .r0; have := h .r1; have := h .r2; have := h .r3
  have := h .r4; have := h .r5; have := h .r6; have := h .r7
  simp_all [Regs.get]

/-- Writing back what a register holds changes nothing. -/
theorem Regs.set_get_self {α : Type} (f : Regs α) (r : Reg) : f.set r (f.get r) = f := by
  cases r <;> rfl

theorem Regs.set_true_mono (w : Regs Bool) (r q : Reg) (h : w.get q = true) : (w.set r true).get q = true := by
  rw [Regs.get_set]; split <;> simp [h]

end Sys2Proof.Machine
end

