-- ==== Sys2Proof/Laws/Ops.lean ====
section
/-! SUPPORT. What each shared operation can answer, said once: reads and writes of registers, the stack, the ALU, and
the end of an instruction. -/

namespace Sys2Proof.Machine

/-! ## Sequencing -/

@[simp] theorem Except.ok_bind {ε α β : Type} (a : α) (f : α → Except ε β) : (Except.ok a >>= f) = f a := rfl

@[simp] theorem Except.error_bind {ε α β : Type} (e : ε) (f : α → Except ε β) :
    (Except.error e >>= f) = Except.error e := rfl

@[simp] theorem Except.pure_eq {ε α : Type} (a : α) : (pure a : Except ε α) = Except.ok a := rfl

/-! ## The end of an instruction -/

@[simp] theorem State.complete_ok (s t : State) (op : Byte) : s.complete op (.ok t) = .next t := rfl

@[simp] theorem State.complete_error (s : State) (op : Byte) (e : Trap) :
    s.complete op (.error e) = .next (s.raise (some op) e) := rfl

/-- An instruction always has a next state: its effect, or a fault. -/
theorem State.complete_next {s t : State} {op : Byte} {e : Except Trap State} (h : s.complete op e = .next t) :
    e = .ok t ∨ ∃ trap, e = .error trap ∧ t = s.raise (some op) trap := by
  cases e <;> simp at h <;> simp [h]

theorem Trap.cause_ne_none (e : Trap) : e.cause ≠ .none := by
  cases e <;> simp [Trap.cause]

/-! ## Register reads -/

@[simp] theorem State.readReg_marked {s : State} {r : Reg} (h : s.written.get r = true) :
    s.readReg r = .ok (s.regs.get r) := by
  simp [State.readReg, h]

@[simp] theorem State.readReg_unmarked {s : State} {r : Reg} (h : ¬ s.written.get r = true) :
    s.readReg r = .error (.unwrittenReg r) := by
  simp [State.readReg, h]

theorem State.readReg_cases (s : State) (r : Reg) :
    (s.written.get r = true ∧ s.readReg r = .ok (s.regs.get r)) ∨
      (¬ s.written.get r = true ∧ s.readReg r = .error (.unwrittenReg r)) := by
  by_cases h : s.written.get r = true
  · exact .inl ⟨h, State.readReg_marked h⟩
  · exact .inr ⟨h, State.readReg_unmarked h⟩

theorem State.readTwo_marked {s : State} {ra rb : Reg} (ha : s.written.get ra = true) (hb : s.written.get rb = true) :
    s.readTwo ra rb = .ok (s.regs.get ra, s.regs.get rb) := by
  simp [State.readTwo, ha, hb]

/-- Everything `readTwo` can answer: Rra before Rrb (60_exceptions.md R204). -/
theorem State.readTwo_cases (s : State) (ra rb : Reg) :
    (s.written.get ra = true ∧ s.written.get rb = true ∧ s.readTwo ra rb = .ok (s.regs.get ra, s.regs.get rb)) ∨
      (¬ s.written.get ra = true ∧ s.readTwo ra rb = .error (.unwrittenReg ra)) ∨
      (s.written.get ra = true ∧ ¬ s.written.get rb = true ∧ s.readTwo ra rb = .error (.unwrittenReg rb)) := by
  by_cases ha : s.written.get ra = true
  · by_cases hb : s.written.get rb = true
    · exact .inl ⟨ha, hb, State.readTwo_marked ha hb⟩
    · exact .inr (.inr ⟨ha, hb, by simp [State.readTwo, ha, hb]⟩)
  · exact .inr (.inl ⟨ha, by simp [State.readTwo, ha]⟩)

/-! ## The stack and jumps -/

/-- Everything `decSp` can answer. -/
theorem State.decSp_cases (s : State) :
    (s.written.get .sp = true ∧ s.decSp = .ok (s.writeReg .sp (s.regs.get .sp - 1))) ∨
      (¬ s.written.get .sp = true ∧ s.decSp = .error (.unwrittenReg .sp)) := by
  rcases s.readReg_cases .sp with ⟨h, e⟩ | ⟨h, e⟩
  · exact .inl ⟨h, by simp [State.decSp, e]⟩
  · exact .inr ⟨h, by simp [State.decSp, e]⟩

/-- Everything `incSp` can answer. -/
theorem State.incSp_cases (s : State) :
    (s.written.get .sp = true ∧ s.incSp = .ok (s.writeReg .sp (s.regs.get .sp + 1))) ∨
      (¬ s.written.get .sp = true ∧ s.incSp = .error (.unwrittenReg .sp)) := by
  rcases s.readReg_cases .sp with ⟨h, e⟩ | ⟨h, e⟩
  · exact .inl ⟨h, by simp [State.incSp, e]⟩
  · exact .inr ⟨h, by simp [State.incSp, e]⟩

/-- Everything `stackTop` can answer. -/
theorem State.stackTop_cases (s : State) :
    (∃ v, s.written.get .sp = true ∧ s.mem.read (s.regs.get .sp).toNat = some v ∧ s.stackTop = .ok v) ∨
      (s.written.get .sp = true ∧ s.mem.read (s.regs.get .sp).toNat = none ∧
        s.stackTop = .error (.unwrittenByte (s.regs.get .sp).toNat)) ∨
      (¬ s.written.get .sp = true ∧ s.stackTop = .error (.unwrittenReg .sp)) := by
  rcases s.readReg_cases .sp with ⟨h, e⟩ | ⟨h, e⟩
  · cases hm : s.mem.read (s.regs.get .sp).toNat with
    | some v => exact .inl ⟨v, h, rfl, by simp [State.stackTop, e, memRead_byte hm]⟩
    | none => exact .inr (.inl ⟨h, rfl, by simp [State.stackTop, e, memRead_unwritten hm]⟩)
  · exact .inr (.inr ⟨h, by simp [State.stackTop, e]⟩)

/-- Everything `setStackTop` can answer: a store at SP never leaves 0..255. -/
theorem State.setStackTop_cases (s : State) (v : Byte) :
    (s.written.get .sp = true ∧ s.setStackTop v = .ok (s.setMem (s.mem.write (s.regs.get .sp).toNat v))) ∨
      (¬ s.written.get .sp = true ∧ s.setStackTop v = .error (.unwrittenReg .sp)) := by
  rcases s.readReg_cases .sp with ⟨h, e⟩ | ⟨h, e⟩
  · exact .inl ⟨h, by simp [State.setStackTop, e]⟩
  · exact .inr ⟨h, by simp [State.setStackTop, e]⟩

/-- Everything `jumpTo` can answer. -/
theorem State.jumpTo_cases (s : State) (ra : Reg) :
    (s.written.get ra = true ∧ s.jumpTo ra = .ok (s.setPc (s.regs.get ra).toPc)) ∨
      (¬ s.written.get ra = true ∧ s.jumpTo ra = .error (.unwrittenReg ra)) := by
  rcases s.readReg_cases ra with ⟨h, e⟩ | ⟨h, e⟩
  · exact .inl ⟨h, by simp [State.jumpTo, e]⟩
  · exact .inr ⟨h, by simp [State.jumpTo, e]⟩

/-- Everything `returnByte` can answer (44_control.md R181). -/
theorem State.returnByte_cases (s : State) :
    (s.pc.toNat + 2 ≤ 255 ∧ s.returnByte = .ok (BitVec.ofNat 8 (s.pc.toNat + 2))) ∨
      (255 < s.pc.toNat + 2 ∧ s.returnByte = .error (.boundsFault (s.pc.toNat + 2))) := by
  by_cases h : 255 < s.pc.toNat + 2
  · exact .inr ⟨h, by simp [State.returnByte, h]⟩
  · exact .inl ⟨by omega, by simp [State.returnByte, h]⟩

@[simp] theorem Byte.toPc_toNat (v : Byte) : v.toPc.toNat = v.toNat := by
  have : v.toNat < 256 := v.isLt
  simp [Byte.toPc, BitVec.toNat_setWidth]; omega

/-! ## The ALU -/

theorem cmpFlags_cases (a b : Byte) :
    (a.toNat = b.toNat ∧ cmpFlags a b = 0x01#8) ∨ (b.toNat < a.toNat ∧ cmpFlags a b = 0x02#8) ∨
      (a.toNat < b.toNat ∧ cmpFlags a b = 0x04#8) := by
  by_cases h1 : a.toNat = b.toNat
  · exact .inl ⟨h1, by simp [cmpFlags, h1]⟩
  · by_cases h2 : a.toNat > b.toNat
    · exact .inr (.inl ⟨h2, by simp [cmpFlags, h1, h2]⟩)
    · exact .inr (.inr ⟨by omega, by simp [cmpFlags, h1, h2]⟩)

section
variable (a b : Byte) (rb : Reg) (ext : Bool)

@[simp] theorem alu_add : alu ext Opcode.add a rb b = .ok (.result (a + b)) := rfl
@[simp] theorem alu_sub : alu ext Opcode.sub a rb b = .ok (.result (a - b)) := rfl
@[simp] theorem alu_mul : alu ext Opcode.mul a rb b = .ok (.result (a * b)) := rfl
@[simp] theorem alu_cmp : alu ext Opcode.cmp a rb b = .ok (.flags (cmpFlags a b)) := rfl
@[simp] theorem alu_div : alu true Opcode.div a rb b = aluDiv a rb b := rfl
@[simp] theorem alu_and : alu true Opcode.and a rb b = .ok (.result (a &&& b)) := rfl
@[simp] theorem alu_or : alu true Opcode.or a rb b = .ok (.result (a ||| b)) := rfl
@[simp] theorem alu_xor : alu true Opcode.xor a rb b = .ok (.result (a ^^^ b)) := rfl
@[simp] theorem alu_not : alu true Opcode.not a rb b = .ok (.result (~~~a)) := rfl
@[simp] theorem alu_shl : alu true Opcode.shl a rb b = .ok (.result (a <<< b.toNat)) := rfl
@[simp] theorem alu_shr : alu true Opcode.shr a rb b = .ok (.result (a >>> b.toNat)) := rfl
end

/-- The extension's operations are outside the ALU's set when `EXT_ALU` is false (42_alu.md R136). -/
theorem alu_ext_off {i : Instr} (h : i.isExtAlu = true) (a b : Byte) (rb : Reg) :
    alu false i.opcode a rb b = .error (.unsupportedOperation i.opcode) := by
  cases i <;> first | rfl | simp [Instr.isExtAlu] at h

/-- What DIV answers. -/
theorem aluDiv_cases (a b : Byte) (rb : Reg) :
    (b = 0 ∧ aluDiv a rb b = .error (.divideByZero rb)) ∨ (b ≠ 0 ∧ aluDiv a rb b = .ok (.result (a / b))) := by
  by_cases h : b = 0
  · exact .inl ⟨h, by simp [aluDiv, h]⟩
  · exact .inr ⟨h, by simp only [aluDiv, if_neg h]⟩

/-- Everything `aluTwo` can answer: the source reads come first, then the ALU. -/
theorem State.aluTwo_cases (s : State) (sel : Byte) (ra rb : Reg) :
    (∃ out, s.written.get ra = true ∧ s.written.get rb = true ∧
        alu s.cfg.extAlu sel (s.regs.get ra) rb (s.regs.get rb) = .ok out ∧
        s.aluTwo sel ra rb = .ok ((s.writeAlu ra out).advance 3)) ∨
      (∃ e, s.written.get ra = true ∧ s.written.get rb = true ∧
        alu s.cfg.extAlu sel (s.regs.get ra) rb (s.regs.get rb) = .error e ∧ s.aluTwo sel ra rb = .error e) ∨
      (¬ s.written.get ra = true ∧ s.aluTwo sel ra rb = .error (.unwrittenReg ra)) ∨
      (s.written.get ra = true ∧ ¬ s.written.get rb = true ∧ s.aluTwo sel ra rb = .error (.unwrittenReg rb)) := by
  rcases s.readTwo_cases ra rb with ⟨ha, hb, e⟩ | ⟨ha, e⟩ | ⟨ha, hb, e⟩
  · cases h : alu s.cfg.extAlu sel (s.regs.get ra) rb (s.regs.get rb) with
    | ok out => exact .inl ⟨out, ha, hb, rfl, by simp [State.aluTwo, e, h]⟩
    | error t => exact .inr (.inl ⟨t, ha, hb, rfl, by simp [State.aluTwo, e, h]⟩)
  · exact .inr (.inr (.inl ⟨ha, by simp [State.aluTwo, e]⟩))
  · exact .inr (.inr (.inr ⟨ha, hb, by simp [State.aluTwo, e]⟩))

/-- Everything `aluOne` can answer. -/
theorem State.aluOne_cases (s : State) (sel : Byte) (ra : Reg) :
    (∃ out, s.written.get ra = true ∧ alu s.cfg.extAlu sel (s.regs.get ra) ra (s.regs.get ra) = .ok out ∧
        s.aluOne sel ra = .ok ((s.writeAlu ra out).advance 2)) ∨
      (∃ e, s.written.get ra = true ∧ alu s.cfg.extAlu sel (s.regs.get ra) ra (s.regs.get ra) = .error e ∧
        s.aluOne sel ra = .error e) ∨
      (¬ s.written.get ra = true ∧ s.aluOne sel ra = .error (.unwrittenReg ra)) := by
  rcases s.readReg_cases ra with ⟨ha, e⟩ | ⟨ha, e⟩
  · cases h : alu s.cfg.extAlu sel (s.regs.get ra) ra (s.regs.get ra) with
    | ok out => exact .inl ⟨out, ha, rfl, by simp [State.aluOne, e, h]⟩
    | error t => exact .inr (.inl ⟨t, ha, rfl, by simp [State.aluOne, e, h]⟩)
  · exact .inr (.inr ⟨ha, by simp [State.aluOne, e]⟩)

@[simp] theorem State.writeAlu_result (s : State) (ra : Reg) (v : Byte) : s.writeAlu ra (.result v) = s.writeReg ra v := rfl
@[simp] theorem State.writeAlu_flags (s : State) (ra : Reg) (v : Byte) : s.writeAlu ra (.flags v) = s.setFl v := rfl

end Sys2Proof.Machine
end

