-- ==== Sys2Proof/Laws/Exec.lean ====
section
/-! SUPPORT. What executing an instruction can do, said once for all instructions: it raises one fault, or it has the
effect listed for it. The invariants and frames are read off this list. -/

namespace Sys2Proof.Machine

/-- The states in which instruction `i`, started in `s`, can complete, and the conditions under which it does. -/
def Completes (i : Instr) (s t : State) : Prop :=
  match i with
  | .hlt => t = { s with pc := 0, runState := .halted }
  | .ldi ra imm => t = (s.writeReg ra imm).advance 3
  | .prn ra => s.written.get ra = true ∧ t = (s.emit (s.regs.get ra)).advance 2
  | .cmp ra rb => s.written.get ra = true ∧ s.written.get rb = true ∧
      t = (s.setFl (cmpFlags (s.regs.get ra) (s.regs.get rb))).advance 3
  | .add ra rb | .sub ra rb | .mul ra rb | .div ra rb | .and ra rb | .or ra rb | .xor ra rb | .shl ra rb | .shr ra rb =>
      s.written.get ra = true ∧ s.written.get rb = true ∧ ∃ v, t = (s.writeReg ra v).advance 3
  | .not ra => s.written.get ra = true ∧ ∃ v, t = (s.writeReg ra v).advance 2
  | .push ra => s.written.get .sp = true ∧
      ∃ v, t = ((s.writeReg .sp (s.regs.get .sp - 1)).setMem (s.mem.write (s.regs.get .sp - 1).toNat v)).advance 2 ∧
        s.written.get ra = true ∧ v = (s.writeReg .sp (s.regs.get .sp - 1)).regs.get ra
  | .pop ra => s.written.get .sp = true ∧
      ∃ v, s.mem.read (s.regs.get .sp).toNat = some v ∧
        t = ((s.writeReg ra v).writeReg .sp ((s.writeReg ra v).regs.get .sp + 1)).advance 2
  | .call ra => s.written.get .sp = true ∧ s.written.get ra = true ∧ s.pc.toNat + 2 ≤ 255 ∧
      t = ((s.writeReg .sp (s.regs.get .sp - 1)).setMem
            (s.mem.write (s.regs.get .sp - 1).toNat (BitVec.ofNat 8 (s.pc.toNat + 2)))).setPc
            ((s.writeReg .sp (s.regs.get .sp - 1)).regs.get ra).toPc
  | .ret => s.written.get .sp = true ∧
      ∃ v, s.mem.read (s.regs.get .sp).toNat = some v ∧
        t = (s.writeReg .sp (s.regs.get .sp + 1)).setPc v.toPc
  | .jmp ra => s.written.get ra = true ∧ t = s.setPc (s.regs.get ra).toPc
  | .jeq ra => (flagE s.fl = true ∧ s.written.get ra = true ∧ t = s.setPc (s.regs.get ra).toPc) ∨
      (flagE s.fl = false ∧ t = s.advance 2)
  | .jne ra => (flagE s.fl = false ∧ s.written.get ra = true ∧ t = s.setPc (s.regs.get ra).toPc) ∨
      (flagE s.fl = true ∧ t = s.advance 2)

/-- When a fatal condition of an instruction's own execution can be raised (60_exceptions.md R204, items 5 and 6). -/
def Raises (i : Instr) (s : State) : Trap → Prop
  | .unwrittenReg r => ¬ s.written.get r = true
  | .unwrittenByte a => s.mem.read a = none ∧ a = (s.regs.get .sp).toNat
  | .boundsFault a => a = s.pc.toNat + 2 ∧ 255 < a
  | .divideByZero rb => s.regs.get rb = 0
  | .unsupportedOperation sel => i.isExtAlu = true ∧ s.cfg.extAlu = false ∧ sel = i.opcode
  | .unknownOpcode _ => False
  | .illegalRegister _ => False

/-- The instructions that send the ALU an operation with a result for Rra. -/
def hasResult : Instr → Bool
  | .add .. | .sub .. | .mul .. | .div .. | .and .. | .or .. | .xor .. | .not .. | .shl .. | .shr .. => true
  | .hlt | .ldi .. | .prn .. | .cmp .. | .push .. | .pop .. | .call .. | .ret | .jmp .. | .jeq .. | .jne .. => false

/-- What the ALU answers for those instructions: a result, or one of its two faults. -/
theorem alu_hasResult {i : Instr} (hi : hasResult i = true) (ext : Bool) (a b : Byte) (rb : Reg) :
    (∃ v, alu ext i.opcode a rb b = .ok (.result v)) ∨
      (b = 0 ∧ alu ext i.opcode a rb b = .error (.divideByZero rb)) ∨
      (i.isExtAlu = true ∧ ext = false ∧ alu ext i.opcode a rb b = .error (.unsupportedOperation i.opcode)) := by
  cases ext
  · by_cases hx : i.isExtAlu = true
    · exact .inr (.inr ⟨hx, rfl, alu_ext_off hx a b rb⟩)
    · cases i <;> simp [hasResult, Instr.isExtAlu] at hi hx <;> exact .inl ⟨_, rfl⟩
  · by_cases hd : ∃ x y, i = .div x y
    · obtain ⟨x, y, rfl⟩ := hd
      rcases aluDiv_cases a b rb with ⟨h, e⟩ | ⟨-, e⟩
      · exact .inr (.inl ⟨h, e⟩)
      · exact .inl ⟨_, e⟩
    · cases i <;> simp [hasResult] at hi hd <;> exact .inl ⟨_, rfl⟩

theorem aluTwo_next {s t : State} {i : Instr} {ra rb : Reg} (hi : hasResult i = true)
    (h : s.complete i.opcode (s.aluTwo i.opcode ra rb) = .next t) :
    (s.written.get ra = true ∧ s.written.get rb = true ∧ ∃ v, t = (s.writeReg ra v).advance 3) ∨
      ∃ e, Raises i s e ∧ t = s.raise (some i.opcode) e := by
  rcases s.aluTwo_cases i.opcode ra rb with ⟨out, ha, hb, hout, e⟩ | ⟨e, ha, hb, hout, h1⟩ | ⟨ha, e⟩ | ⟨ha, hb, e⟩
  · rw [e] at h
    rcases alu_hasResult hi s.cfg.extAlu (s.regs.get ra) (s.regs.get rb) rb with ⟨v, hv⟩ | ⟨-, hv⟩ | ⟨-, -, hv⟩ <;>
      rw [hv] at hout <;> cases hout
    exact .inl ⟨ha, hb, v, by simpa using h.symm⟩
  · rw [h1] at h
    refine .inr ⟨e, ?_, by simpa using h.symm⟩
    rcases alu_hasResult hi s.cfg.extAlu (s.regs.get ra) (s.regs.get rb) rb with ⟨v, hv⟩ | ⟨h0, hv⟩ | ⟨hx, hf, hv⟩ <;>
      rw [hv] at hout <;> cases hout
    · exact h0
    · exact ⟨hx, hf, rfl⟩
  · rw [e] at h
    exact .inr ⟨.unwrittenReg ra, ha, by simpa using h.symm⟩
  · rw [e] at h
    exact .inr ⟨.unwrittenReg rb, hb, by simpa using h.symm⟩

/-- A jump to a register, at the end of an instruction. -/
theorem jumpTo_next {s t : State} {op : Byte} {ra : Reg} (h : s.complete op (s.jumpTo ra) = .next t) :
    (s.written.get ra = true ∧ t = s.setPc (s.regs.get ra).toPc) ∨
      (¬ s.written.get ra = true ∧ t = s.raise (some op) (.unwrittenReg ra)) := by
  rcases s.jumpTo_cases ra with ⟨ha, e⟩ | ⟨ha, e⟩ <;> rw [e] at h
  · exact .inl ⟨ha, by simpa using h.symm⟩
  · exact .inr ⟨ha, by simpa using h.symm⟩

theorem execCmp_next {s t : State} {ra rb : Reg} (h : execCmp ra rb s = .next t) :
    Completes (.cmp ra rb) s t ∨ ∃ e, Raises (.cmp ra rb) s e ∧ t = s.raise (some Opcode.cmp) e := by
  unfold execCmp at h
  rcases s.aluTwo_cases Opcode.cmp ra rb with ⟨out, ha, hb, hout, e⟩ | ⟨e, ha, hb, hout, h1⟩ | ⟨ha, e⟩ | ⟨ha, hb, e⟩
  · rw [e] at h; rw [alu_cmp] at hout; cases hout
    exact .inl ⟨ha, hb, by simpa using h.symm⟩
  · rw [alu_cmp] at hout; cases hout
  · rw [e] at h; exact .inr ⟨.unwrittenReg ra, ha, by simpa using h.symm⟩
  · rw [e] at h; exact .inr ⟨.unwrittenReg rb, hb, by simpa using h.symm⟩

theorem execNot_next {s t : State} {ra : Reg} (h : execNot ra s = .next t) :
    Completes (.not ra) s t ∨ ∃ e, Raises (.not ra) s e ∧ t = s.raise (some Opcode.not) e := by
  unfold execNot at h
  rcases s.aluOne_cases Opcode.not ra with ⟨out, ha, hout, e⟩ | ⟨e, ha, hout, h1⟩ | ⟨ha, e⟩
  · rw [e] at h
    rcases alu_hasResult (i := .not ra) rfl s.cfg.extAlu (s.regs.get ra) (s.regs.get ra) ra with
      ⟨v, hv⟩ | ⟨-, hv⟩ | ⟨-, -, hv⟩ <;> simp only [Instr.opcode] at hv <;> rw [hv] at hout <;> cases hout
    exact .inl ⟨ha, v, by simpa using h.symm⟩
  · rw [h1] at h
    refine .inr ⟨e, ?_, by simpa using h.symm⟩
    rcases alu_hasResult (i := .not ra) rfl s.cfg.extAlu (s.regs.get ra) (s.regs.get ra) ra with
      ⟨v, hv⟩ | ⟨h0, hv⟩ | ⟨hx, hf, hv⟩ <;> simp only [Instr.opcode] at hv <;> rw [hv] at hout <;> cases hout
    · exact h0
    · exact ⟨hx, hf, rfl⟩
  · rw [e] at h; exact .inr ⟨.unwrittenReg ra, ha, by simpa using h.symm⟩

theorem execPrn_next {s t : State} {ra : Reg} (h : execPrn ra s = .next t) :
    Completes (.prn ra) s t ∨ ∃ e, Raises (.prn ra) s e ∧ t = s.raise (some Opcode.prn) e := by
  unfold execPrn at h
  rcases s.readReg_cases ra with ⟨ha, e⟩ | ⟨ha, e⟩ <;> rw [e] at h
  · exact .inl ⟨ha, by simpa using h.symm⟩
  · exact .inr ⟨.unwrittenReg ra, ha, by simpa using h.symm⟩

theorem execPush_next {s t : State} {ra : Reg} (h : execPush ra s = .next t) :
    Completes (.push ra) s t ∨ ∃ e, Raises (.push ra) s e ∧ t = s.raise (some Opcode.push) e := by
  unfold execPush at h
  rcases s.decSp_cases with ⟨hs, e⟩ | ⟨hs, e⟩ <;> rw [e] at h
  · simp only [Except.ok_bind] at h
    rcases (s.writeReg .sp (s.regs.get .sp - 1)).readReg_cases ra with ⟨ha, e⟩ | ⟨ha, e⟩ <;> rw [e] at h
    · simp only [Except.ok_bind] at h
      rcases (s.writeReg .sp (s.regs.get .sp - 1)).setStackTop_cases
        ((s.writeReg .sp (s.regs.get .sp - 1)).regs.get ra) with ⟨-, e⟩ | ⟨hn, -⟩
      · rw [e] at h
        refine .inl ⟨hs, _, by simpa using h.symm, ?_, rfl⟩
        simp only [State.writeReg_written, Regs.get_set] at ha
        split at ha
        · next hr => rw [hr]; exact hs
        · exact ha
      · simp at hn
    · refine .inr ⟨.unwrittenReg ra, fun hr => ha ?_, by simpa using h.symm⟩
      exact Regs.set_true_mono _ _ _ hr
  · exact .inr ⟨.unwrittenReg .sp, hs, by simpa using h.symm⟩

theorem execPop_next {s t : State} {ra : Reg} (h : execPop ra s = .next t) :
    Completes (.pop ra) s t ∨ ∃ e, Raises (.pop ra) s e ∧ t = s.raise (some Opcode.pop) e := by
  unfold execPop at h
  rcases s.stackTop_cases with ⟨v, hs, hm, e⟩ | ⟨hs, hm, e⟩ | ⟨hs, e⟩ <;> rw [e] at h
  · simp only [Except.ok_bind] at h
    rcases (s.writeReg ra v).incSp_cases with ⟨-, e⟩ | ⟨hn, -⟩
    · rw [e] at h
      exact .inl ⟨hs, v, hm, by simpa using h.symm⟩
    · exact absurd (Regs.set_true_mono _ _ _ hs) hn
  · exact .inr ⟨.unwrittenByte _, ⟨hm, rfl⟩, by simpa using h.symm⟩
  · exact .inr ⟨.unwrittenReg .sp, hs, by simpa using h.symm⟩

theorem execCall_next {s t : State} {ra : Reg} (h : execCall ra s = .next t) :
    Completes (.call ra) s t ∨ ∃ e, Raises (.call ra) s e ∧ t = s.raise (some Opcode.call) e := by
  unfold execCall at h
  rcases s.readReg_cases ra with ⟨ha, e⟩ | ⟨ha, e⟩ <;> rw [e] at h
  · simp only [Except.ok_bind] at h
    rcases s.returnByte_cases with ⟨hp, e⟩ | ⟨hp, e⟩ <;> rw [e] at h
    · simp only [Except.ok_bind] at h
      rcases s.decSp_cases with ⟨hs, e⟩ | ⟨hs, e⟩ <;> rw [e] at h
      · simp only [Except.ok_bind] at h
        rcases (s.writeReg .sp (s.regs.get .sp - 1)).setStackTop_cases (BitVec.ofNat 8 (s.pc.toNat + 2)) with
          ⟨-, e⟩ | ⟨hn, -⟩
        · rw [e] at h
          simp only [Except.ok_bind] at h
          have hr : ((s.writeReg .sp (s.regs.get .sp - 1)).written.get ra) = true := Regs.set_true_mono _ _ _ ha
          exact .inl ⟨hs, ha, hp, by simpa [State.jumpTo, State.readReg, Regs.set_true_mono _ _ _ ha] using h.symm⟩
        · simp at hn
      · exact .inr ⟨.unwrittenReg .sp, hs, by simpa using h.symm⟩
    · exact .inr ⟨.boundsFault _, ⟨rfl, hp⟩, by simpa using h.symm⟩
  · exact .inr ⟨.unwrittenReg ra, ha, by simpa using h.symm⟩

theorem execRet_next {s t : State} (h : execRet s = .next t) :
    Completes .ret s t ∨ ∃ e, Raises .ret s e ∧ t = s.raise (some Opcode.ret) e := by
  unfold execRet at h
  rcases s.stackTop_cases with ⟨v, hs, hm, e⟩ | ⟨hs, hm, e⟩ | ⟨hs, e⟩ <;> rw [e] at h
  · simp only [Except.ok_bind] at h
    rcases s.incSp_cases with ⟨-, e⟩ | ⟨hn, -⟩
    · rw [e] at h
      exact .inl ⟨hs, v, hm, by simpa using h.symm⟩
    · exact absurd hs hn
  · exact .inr ⟨.unwrittenByte _, ⟨hm, rfl⟩, by simpa using h.symm⟩
  · exact .inr ⟨.unwrittenReg .sp, hs, by simpa using h.symm⟩

theorem execJmp_next {s t : State} {ra : Reg} (h : execJmp ra s = .next t) :
    Completes (.jmp ra) s t ∨ ∃ e, Raises (.jmp ra) s e ∧ t = s.raise (some Opcode.jmp) e := by
  rcases jumpTo_next h with h | ⟨hn, ht⟩
  · exact .inl h
  · exact .inr ⟨.unwrittenReg ra, hn, ht⟩

theorem execJeq_next {s t : State} {ra : Reg} (h : execJeq ra s = .next t) :
    Completes (.jeq ra) s t ∨ ∃ e, Raises (.jeq ra) s e ∧ t = s.raise (some Opcode.jeq) e := by
  unfold execJeq at h
  split at h
  · next hE =>
    rcases jumpTo_next h with h | ⟨hn, ht⟩
    · exact .inl (.inl ⟨hE, h⟩)
    · exact .inr ⟨.unwrittenReg ra, hn, ht⟩
  · next hE => exact .inl (.inr ⟨by simpa using hE, by simpa using h.symm⟩)

theorem execJne_next {s t : State} {ra : Reg} (h : execJne ra s = .next t) :
    Completes (.jne ra) s t ∨ ∃ e, Raises (.jne ra) s e ∧ t = s.raise (some Opcode.jne) e := by
  unfold execJne at h
  split at h
  · next hE => exact .inl (.inr ⟨hE, by simpa using h.symm⟩)
  · next hE =>
    rcases jumpTo_next h with h | ⟨hn, ht⟩
    · exact .inl (.inl ⟨by simpa using hE, h⟩)
    · exact .inr ⟨.unwrittenReg ra, hn, ht⟩

/-- Everything executing an instruction can do. -/
theorem exec_next {i : Instr} {s t : State} (h : exec i s = .next t) :
    Completes i s t ∨ ∃ e, Raises i s e ∧ t = s.raise (some i.opcode) e := by
  cases i with
  | hlt => exact .inl (by simpa [exec, execHlt, Completes, State.setPc] using h.symm)
  | ldi ra imm => exact .inl (by simpa [exec, execLdi, Completes] using h.symm)
  | prn ra => exact execPrn_next h
  | add ra rb => exact aluTwo_next (i := .add ra rb) rfl h
  | sub ra rb => exact aluTwo_next (i := .sub ra rb) rfl h
  | mul ra rb => exact aluTwo_next (i := .mul ra rb) rfl h
  | cmp ra rb => exact execCmp_next h
  | push ra => exact execPush_next h
  | pop ra => exact execPop_next h
  | call ra => exact execCall_next h
  | ret => exact execRet_next h
  | jmp ra => exact execJmp_next h
  | jeq ra => exact execJeq_next h
  | jne ra => exact execJne_next h
  | div ra rb => exact aluTwo_next (i := .div ra rb) rfl h
  | and ra rb => exact aluTwo_next (i := .and ra rb) rfl h
  | or ra rb => exact aluTwo_next (i := .or ra rb) rfl h
  | xor ra rb => exact aluTwo_next (i := .xor ra rb) rfl h
  | not ra => exact execNot_next h
  | shl ra rb => exact aluTwo_next (i := .shl ra rb) rfl h
  | shr ra rb => exact aluTwo_next (i := .shr ra rb) rfl h

end Sys2Proof.Machine
end

