-- ==== Sys2Proof/Laws/PerInstr.lean ====
section
/-! SUPPORT. A statement about every instruction as syntax, with one lemma per constructor. -/

namespace Sys2Proof.Laws.OpcodeInMap

/-- The active map holds the instruction's opcode exactly when the instruction is well-formed, and the row found there makes
this very instruction from its operands (30_encoding.md R83, R84, R88, R89). -/
def Statement (i : Instr) : Prop :=
  ∀ ext : Bool, activeEntry ext i.opcode = if i.wellFormed ext then some i.entry else none

theorem hlt : Statement (.hlt) := fun ext => activeEntry_opcode ext _
theorem ldi (ra : Reg) (imm : Byte) : Statement (.ldi ra imm) := fun ext => activeEntry_opcode ext _
theorem prn (ra : Reg) : Statement (.prn ra) := fun ext => activeEntry_opcode ext _
theorem add (ra rb : Reg) : Statement (.add ra rb) := fun ext => activeEntry_opcode ext _
theorem sub (ra rb : Reg) : Statement (.sub ra rb) := fun ext => activeEntry_opcode ext _
theorem mul (ra rb : Reg) : Statement (.mul ra rb) := fun ext => activeEntry_opcode ext _
theorem cmp (ra rb : Reg) : Statement (.cmp ra rb) := fun ext => activeEntry_opcode ext _
theorem push (ra : Reg) : Statement (.push ra) := fun ext => activeEntry_opcode ext _
theorem pop (ra : Reg) : Statement (.pop ra) := fun ext => activeEntry_opcode ext _
theorem call (ra : Reg) : Statement (.call ra) := fun ext => activeEntry_opcode ext _
theorem ret : Statement (.ret) := fun ext => activeEntry_opcode ext _
theorem jmp (ra : Reg) : Statement (.jmp ra) := fun ext => activeEntry_opcode ext _
theorem jeq (ra : Reg) : Statement (.jeq ra) := fun ext => activeEntry_opcode ext _
theorem jne (ra : Reg) : Statement (.jne ra) := fun ext => activeEntry_opcode ext _
theorem div (ra rb : Reg) : Statement (.div ra rb) := fun ext => activeEntry_opcode ext _
theorem and (ra rb : Reg) : Statement (.and ra rb) := fun ext => activeEntry_opcode ext _
theorem or (ra rb : Reg) : Statement (.or ra rb) := fun ext => activeEntry_opcode ext _
theorem xor (ra rb : Reg) : Statement (.xor ra rb) := fun ext => activeEntry_opcode ext _
theorem not (ra : Reg) : Statement (.not ra) := fun ext => activeEntry_opcode ext _
theorem shl (ra rb : Reg) : Statement (.shl ra rb) := fun ext => activeEntry_opcode ext _
theorem shr (ra rb : Reg) : Statement (.shr ra rb) := fun ext => activeEntry_opcode ext _

end Sys2Proof.Laws.OpcodeInMap
end

