-- ==== Sys2Proof/Laws/Step.lean ====
section
/-! SUPPORT. What a step can do, said once: stop, take a fault of the fetch, or execute the decoded instruction. -/

namespace Sys2Proof.Machine

/-- Everything a fetched byte can be. -/
theorem State.fetchByte_cases (s : State) (k : Nat) :
    (∃ v, s.pc.toNat + k ≤ 255 ∧ s.mem.read (s.pc.toNat + k) = some v ∧ s.fetchByte k = .ok v) ∨
      (s.pc.toNat + k ≤ 255 ∧ s.mem.read (s.pc.toNat + k) = none ∧
        s.fetchByte k = .error (.unwrittenByte (s.pc.toNat + k))) ∨
      (255 < s.pc.toNat + k ∧ s.fetchByte k = .error (.boundsFault (s.pc.toNat + k))) := by
  unfold State.fetchByte
  rw [memRead_eq]
  by_cases h : s.pc.toNat + k < 256
  · rw [if_pos h]
    cases hm : s.mem.read (s.pc.toNat + k) with
    | some v => exact .inl ⟨v, by omega, rfl, rfl⟩
    | none => exact .inr (.inl ⟨by omega, rfl, rfl⟩)
  · rw [if_neg h]
    exact .inr (.inr ⟨by omega, rfl⟩)

theorem State.fetchByte_ok_iff {s : State} {k : Nat} {v : Byte} :
    s.fetchByte k = .ok v ↔ s.pc.toNat + k < 256 ∧ s.mem.read (s.pc.toNat + k) = some v := memRead_ok_iff

theorem step_running {s : State} (h : s.runState = .running) :
    step s = match s.fetchInstr with
      | .error f => .next (s.raise f.opcode f.trap)
      | .ok i => exec i s := by
  cases hf : s.fetchInstr <;> simp only [step, h, hf]

/-- A step whose opcode fetch fails. -/
theorem step_opcode_fault {s : State} {t : Trap} (h : s.runState = .running) (hf : s.fetchByte 0 = .error t) :
    step s = .next (s.raise none t) := by
  rw [step_running h, State.fetchInstr, hf]

/-- A step whose opcode is fetched: the decoder decides. -/
theorem step_of_opcode {s : State} {op : Byte} (h : s.runState = .running) (hf : s.fetchByte 0 = .ok op) :
    step s = match decodeOperands Trap.ofReject s.fetchByte s.cfg.extAlu op with
      | .error t => .next (s.raise (some op) t)
      | .ok i => exec i s := by
  rw [step_running h, State.fetchInstr, hf]
  dsimp only
  cases decodeOperands Trap.ofReject s.fetchByte s.cfg.extAlu op <;> rfl

/-- A step that decodes an instruction executes it. -/
theorem step_exec {s : State} {i : Instr} (h : s.runState = .running) (hw : i.wellFormed s.cfg.extAlu = true)
    (h0 : s.fetchByte 0 = .ok i.opcode)
    (hk : ∀ k, (hk : k < i.operandBytes.length) → s.fetchByte (k + 1) = .ok i.operandBytes[k]) : step s = exec i s := by
  rw [step_of_opcode h h0, decodeOperands_of_reads _ hw hk]

/-- Everything a step with a next state can be: a fault of the fetch, with the opcode byte if it was fetched, or the
execution of a well-formed instruction whose bytes were fetched. -/
theorem step_next {s t : State} (h : step s = .next t) :
    s.runState = .running ∧
      ((∃ e, (∃ x, s.fetchByte 0 = .error x) ∧ t = s.raise none e ∧ e.cause ≠ .unsupportedOperation ∧
          ∀ r, e ≠ .unwrittenReg r) ∨
        (∃ op e, s.fetchByte 0 = .ok op ∧ t = s.raise (some op) e ∧ e.cause ≠ .unsupportedOperation ∧
          ∀ r, e ≠ .unwrittenReg r) ∨
        (∃ i, i.wellFormed s.cfg.extAlu = true ∧ s.fetchByte 0 = .ok i.opcode ∧ exec i s = .next t)) := by
  have read_err : ∀ k e, s.fetchByte k = .error e → e.cause ≠ .unsupportedOperation ∧ ∀ r, e ≠ .unwrittenReg r := by
    intro k e he
    rcases s.fetchByte_cases k with ⟨v, -, -, h1⟩ | ⟨-, -, h1⟩ | ⟨-, h1⟩ <;> rw [h1] at he <;> cases he <;>
      simp [Trap.cause]
  have reg_err : ∀ b e, regOperand Trap.ofReject b = .error e → e.cause ≠ .unsupportedOperation ∧ ∀ r, e ≠ .unwrittenReg r := by
    intro b e he
    rcases regOperand_cases Trap.ofReject b with ⟨r, h1, -⟩ | ⟨-, h1⟩ <;> rw [h1] at he <;> cases he
    simp [Trap.ofReject, Trap.cause]
  cases hr : s.runState with
  | halted => simp [step, hr] at h
  | faulted => simp [step, hr] at h
  | running =>
    refine ⟨rfl, ?_⟩
    cases h0 : s.fetchByte 0 with
    | error e =>
      rw [step_opcode_fault hr h0] at h
      have := read_err 0 e h0
      exact .inl ⟨e, ⟨e, rfl⟩, by simpa using h.symm, this⟩
    | ok op =>
      rw [step_of_opcode hr h0] at h
      cases hd : decodeOperands Trap.ofReject s.fetchByte s.cfg.extAlu op with
      | ok i =>
        rw [hd] at h
        obtain ⟨hw, rfl, -⟩ := decodeOperands_ok hd
        exact .inr (.inr ⟨i, hw, rfl, h⟩)
      | error e =>
        rw [hd] at h
        refine .inr (.inl ⟨op, e, rfl, by simpa using h.symm, ?_⟩)
        unfold decodeOperands at hd
        split at hd
        · cases hd; simp [Trap.ofReject, Trap.cause]
        · cases hd
        all_goals
          cases h1 : s.fetchByte 1 with
          | error e1 => rw [h1] at hd; cases hd; exact read_err 1 e h1
          | ok b1 =>
            rw [h1] at hd
            first
            | cases h2 : s.fetchByte 2 with
              | error e2 => rw [h2] at hd; cases hd; exact read_err 2 e h2
              | ok b2 =>
                rw [h2] at hd
                simp only [Except.ok_bind] at hd
                cases h3 : regOperand Trap.ofReject b1 with
                | error e3 => rw [h3] at hd; cases hd; exact reg_err b1 e h3
                | ok ra =>
                  rw [h3] at hd
                  first
                  | cases hd
                  | simp only [Except.ok_bind] at hd
                    cases h4 : regOperand Trap.ofReject b2 with
                    | error e4 => rw [h4] at hd; cases hd; exact reg_err b2 e h4
                    | ok rb => rw [h4] at hd; cases hd
            | simp only [Except.ok_bind] at hd
              cases h3 : regOperand Trap.ofReject b1 with
              | error e3 => rw [h3] at hd; cases hd; exact reg_err b1 e h3
              | ok ra => rw [h3] at hd; cases hd

end Sys2Proof.Machine
end

