-- ==== Sys2Proof/Tests/Slice0.lean ====
section
/-! SUPPORT. The author's tests, each about one step or one decoding, and the witnesses that the hypotheses of the statements
can be met. Expected results are those of spec/95_test_vectors.md (W, V and P numbers) or worked out by hand from the rule
that is named. -/

namespace Sys2Proof.Tests

open Sys2Proof.Machine

/-! ## Small states -/

/-- After reset. -/
def base : State := State.reset

/-- After reset with `EXT_ALU = true`. -/
def ext : State := { base with cfg := { base.cfg with extAlu := true } }

/-- After reset with `RESET_GPR` not supplied: R0..R6 unwritten. -/
def unw : State := State.powerOn { Config.standard with extAlu := true, resetGpr := none }

/-- `s` with the bytes at address `a`. -/
def State.put (a : Nat) (bytes : List Byte) (s : State) : State := { s with mem := Memory.place a bytes s.mem }

/-- What `f` reads in the next state. -/
def got {α : Type} (o : Host.Outcome State Fault Refusal) (f : State → α) : Option α :=
  match o with
  | .next t => some (f t)
  | .fault _ => none
  | .refused _ => none

/-- What a fault leaves: the run state, and the record's cause, PC, opcode and info. -/
structure FaultView where
  runState : RunState
  cause : Nat
  pc : Pc
  opcode : Option Byte
  info : Option Nat
  deriving DecidableEq, Repr

def faultOf (t : State) : FaultView :=
  ⟨t.runState, t.fault.cause.code, t.fault.pc, t.fault.opcode, t.fault.info.value⟩

/-! ## Well-formedness: each EXT_ALU instruction is ill-formed when EXT_ALU is false (R11) -/

theorem test_illformed_div : Instr.wellFormed false (.div .r0 .r1) = false := by decide
theorem test_illformed_and : Instr.wellFormed false (.and .r0 .r1) = false := by decide
theorem test_illformed_or : Instr.wellFormed false (.or .r0 .r1) = false := by decide
theorem test_illformed_xor : Instr.wellFormed false (.xor .r0 .r1) = false := by decide
theorem test_illformed_not : Instr.wellFormed false (.not .r0) = false := by decide
theorem test_illformed_shl : Instr.wellFormed false (.shl .r0 .r1) = false := by decide
theorem test_illformed_shr : Instr.wellFormed false (.shr .r0 .r1) = false := by decide
theorem test_wellformed_base : Instr.wellFormed false (.add .r0 .r1) = true := by decide

/-! ## Decoding: every constructor by a word written out from R82, R83 and R84 -/

theorem test_decode_hlt : decode false [0b00000001] = .ok (.hlt, []) := by decide
theorem test_decode_ldi : decode false [0b10000010, 0b00000000, 0b00001000] = .ok (.ldi .r0 8, []) := by decide
theorem test_decode_prn : decode false [0b01000111, 0b00000111] = .ok (.prn .r7, []) := by decide
theorem test_decode_add : decode false [0b10100000, 0b00000001, 0b00000010] = .ok (.add .r1 .r2, []) := by decide
theorem test_decode_sub : decode false [0b10100001, 0b00000011, 0b00000100] = .ok (.sub .r3 .r4, []) := by decide
theorem test_decode_mul : decode false [0b10100010, 0b00000101, 0b00000110] = .ok (.mul .r5 .r6, []) := by decide
theorem test_decode_cmp : decode false [0b10100111, 0b00000111, 0b00000000] = .ok (.cmp .r7 .r0, []) := by decide
theorem test_decode_push : decode false [0b01000101, 0b00000001] = .ok (.push .r1, []) := by decide
theorem test_decode_pop : decode false [0b01000110, 0b00000010] = .ok (.pop .r2, []) := by decide
theorem test_decode_call : decode false [0b01010000, 0b00000011] = .ok (.call .r3, []) := by decide
theorem test_decode_ret : decode false [0b00010001] = .ok (.ret, []) := by decide
theorem test_decode_jmp : decode false [0b01010100, 0b00000100] = .ok (.jmp .r4, []) := by decide
theorem test_decode_jeq : decode false [0b01010101, 0b00000101] = .ok (.jeq .r5, []) := by decide
theorem test_decode_jne : decode false [0b01010110, 0b00000110] = .ok (.jne .r6, []) := by decide
theorem test_decode_div : decode true [0b10100011, 0b00000000, 0b00000001] = .ok (.div .r0 .r1, []) := by decide
theorem test_decode_and : decode true [0b10101000, 0b00000001, 0b00000000] = .ok (.and .r1 .r0, []) := by decide
theorem test_decode_or : decode true [0b10101010, 0b00000010, 0b00000011] = .ok (.or .r2 .r3, []) := by decide
theorem test_decode_xor : decode true [0b10101011, 0b00000100, 0b00000101] = .ok (.xor .r4 .r5, []) := by decide
theorem test_decode_not : decode true [0b01101001, 0b00000010] = .ok (.not .r2, []) := by decide
theorem test_decode_shl : decode true [0b10101100, 0b00000110, 0b00000111] = .ok (.shl .r6 .r7, []) := by decide
theorem test_decode_shr : decode true [0b10101101, 0b00000111, 0b00000110] = .ok (.shr .r7 .r6, []) := by decide

/-- V1: 0x00 is no NOP. V2: AA = 11 is never legal. V3: DIV is unknown with EXT_ALU = false. -/
theorem test_decode_unknown :
    decode true [0x00] = .error (.rejected (.unknownOpcode 0x00)) ∧
    decode true [0xC0] = .error (.rejected (.unknownOpcode 0xC0)) ∧
    decode false [0xA3, 0, 1] = .error (.rejected (.unknownOpcode 0xA3)) := by decide

/-- R86: the index is the whole byte, not its low three bits. A short list of bytes is not an instruction. -/
theorem test_decode_rejects :
    decode false [0xA0, 1, 0x09] = .error (.rejected (.illegalRegister 0x09)) ∧
    decode false [0xA0, 1] = .error (.truncated 2) := by decide

theorem test_table_word :
    decodeTableWord 24 0x080082 = some (.ldi .r0 8) ∧ decodeTableWord 8 0xAD = some (.shr .r0 .r0) ∧
    decodeTableWord 8 0x00 = none := by decide

/-- No opcode stands in two rows of the maps. -/
theorem test_opcodes_distinct : ((baseMap ++ extMap).map Row.opcode).Pairwise (· ≠ ·) := by decide

/-! ## Instructions -/

/-- V12: HLT at 9 leaves R0 and sets PC to 0. -/
theorem test_hlt : got (step (State.put 9 [0x01] { base.writeReg .r0 5 with pc := 9 }))
    (fun t => (t.runState, t.pc, t.regs.get .r0)) = some (.halted, 0, 5) := by decide
/-- W7: LDI R0,8. -/
theorem test_ldi : got (step (State.put 0 [0x82, 0, 8] base)) (fun t => (t.regs.get .r0, t.pc)) = some (8, 3) := by decide
/-- V9: LDI at 253 leaves PC = 256. -/
theorem test_ldi_at_end : got (step (State.put 253 [0x82, 1, 7] { base with pc := 253 }))
    (fun t => (t.regs.get .r1, t.pc)) = some (7, 256) := by decide
/-- V18: PRN R7 outputs 244. -/
theorem test_prn : got (step (State.put 0 [0x47, 7] base)) (fun t => (t.output, t.outputText, t.pc)) =
    some ([244], ['2', '4', '4', '\n'], 2) := by decide
/-- V20: 200 + 100 = 44. -/
theorem test_add : got (step (State.put 0 [0xA0, 0, 1] ((base.writeReg .r0 200).writeReg .r1 100)))
    (fun t => (t.regs.get .r0, t.regs.get .r1, t.pc)) = some (44, 100, 3) := by decide
/-- V22: a source that is also the destination, 128 + 128 = 0; FL is kept (V40). -/
theorem test_add_same : got (exec (.add .r0 .r0) ((base.writeReg .r0 128).setFl 4)) (fun t => (t.regs.get .r0, t.fl)) =
    some (0, 4) := by decide
/-- V24: 3 - 5 = 254. -/
theorem test_sub : got (exec (.sub .r0 .r1) ((base.writeReg .r0 3).writeReg .r1 5)) (fun t => t.regs.get .r0) =
    some 254 := by decide
/-- V30: 255 * 255 = 1 modulo 256. -/
theorem test_mul : got (exec (.mul .r0 .r1) ((base.writeReg .r0 255).writeReg .r1 255)) (fun t => t.regs.get .r0) =
    some 1 := by decide
/-- V36: 0 against 255 sets L: unsigned. -/
theorem test_cmp_unsigned : got (exec (.cmp .r0 .r1) ((base.writeReg .r0 0).writeReg .r1 255)) (fun t => (t.fl, t.pc)) =
    some (4, 3) := by decide
/-- V38 and V39: 128 against 127 sets G, and a register against itself sets E. -/
theorem test_cmp_greater_equal :
    got (exec (.cmp .r0 .r1) (((base.writeReg .r0 128).writeReg .r1 127).setFl 1)) (fun t => t.fl) = some 2 ∧
    got (exec (.cmp .r4 .r4) (base.writeReg .r4 9)) (fun t => t.fl) = some 1 := by decide
/-- V41: 100 / 7 = 14. -/
theorem test_div : got (exec (.div .r0 .r1) ((ext.writeReg .r0 100).writeReg .r1 7)) (fun t => t.regs.get .r0) =
    some 14 := by decide
/-- V44: a zero divisor leaves x[ra] and PC. -/
theorem test_div_zero : got (step (State.put 0 [0xA3, 0, 1] (ext.writeReg .r0 5))) (fun t => (faultOf t, t.regs.get .r0, t.pc)) =
    some (⟨.faulted, 5, 0, some 0xA3, some 1⟩, 5, 0) := by decide
/-- DIV by zero at 3, under the reading of `fault_info` that is `d`. -/
def divZero (d : DivideInfo) : State :=
  State.put 3 [0xA3, 0, 1] { ext.writeReg .r0 5 with pc := 3, cfg := { ext.cfg with divideInfo := d } }
/-- R140's own words, `raise DivideByZero(pc0)`. -/
theorem test_div_zero_pc0 : got (step (divZero .faultingPc)) faultOf = some ⟨.faulted, 5, 3, some 0xA3, some 3⟩ := by decide
/-- V45 to V47. -/
theorem test_and : got (exec (.and .r0 .r1) ((ext.writeReg .r0 0xCC).writeReg .r1 0xAA)) (fun t => t.regs.get .r0) =
    some 0x88 := by decide
theorem test_or : got (exec (.or .r0 .r1) ((ext.writeReg .r0 0xCC).writeReg .r1 0xAA)) (fun t => t.regs.get .r0) =
    some 0xEE := by decide
theorem test_xor : got (exec (.xor .r0 .r1) ((ext.writeReg .r0 0xCC).writeReg .r1 0xAA)) (fun t => t.regs.get .r0) =
    some 0x66 := by decide
/-- V49: NOT advances by 2. -/
theorem test_not : got (step (State.put 0 [0x69, 2] (ext.writeReg .r2 0x0F))) (fun t => (t.regs.get .r2, t.pc)) =
    some (0xF0, 2) := by decide
/-- V52 and V53. -/
theorem test_shl :
    got (exec (.shl .r0 .r1) ((ext.writeReg .r0 0x01).writeReg .r1 7)) (fun t => t.regs.get .r0) = some 0x80 ∧
    got (exec (.shl .r0 .r1) ((ext.writeReg .r0 0xFF).writeReg .r1 8)) (fun t => t.regs.get .r0) = some 0 := by decide
/-- V54 and V56: zeros come in, and the count is not masked. -/
theorem test_shr :
    got (exec (.shr .r0 .r1) ((ext.writeReg .r0 0x81).writeReg .r1 1)) (fun t => t.regs.get .r0) = some 0x40 ∧
    got (exec (.shr .r0 .r1) ((ext.writeReg .r0 0xFF).writeReg .r1 200)) (fun t => t.regs.get .r0) = some 0 := by decide
/-- V63: a push at SP = 0 writes 0xFF. -/
theorem test_push_wraps : got (exec (.push .r0) ((base.writeReg .r0 9).writeReg .r7 0))
    (fun t => (t.regs.get .r7, t.mem, t.pc)) = some (0xFF, [(255, 9)], 2) := by decide
/-- V60: PUSH R7 stores the decremented SP. -/
theorem test_push_sp : got (exec (.push .r7) base) (fun t => (t.regs.get .r7, t.mem)) = some (0xF3, [(0xF3, 0xF3)]) := by
  decide
/-- V64: a pop at SP = 0xFF. -/
theorem test_pop_wraps : got (exec (.pop .r2) (State.put 255 [9] (base.writeReg .r7 0xFF)))
    (fun t => (t.regs.get .r2, t.regs.get .r7)) = some (9, 0) := by decide
/-- V62: POP R7 increments the popped value. -/
theorem test_pop_sp : got (exec (.pop .r7) (State.put 0xF3 [0x10] (base.writeReg .r7 0xF3))) (fun t => t.regs.get .r7) =
    some 0x11 := by decide
/-- V69: CALL R7 jumps to the decremented SP. -/
theorem test_call_sp : got (step (State.put 9 [0x50, 7] { base with pc := 9 }))
    (fun t => (t.regs.get .r7, t.mem.read 0xF3, t.pc)) = some (0xF3, some 11, 0xF3) := by decide
/-- V70: the return address 256 cannot be stored. -/
theorem test_call_bounds : got (step (State.put 254 [0x50, 0] { base.writeReg .r0 0x20 with pc := 254 }))
    (fun t => (faultOf t, t.regs.get .r7, t.mem.read 0xF3)) = some (⟨.faulted, 3, 254, some 0x50, some 256⟩, 0xF4, none) := by
  decide
/-- V68. -/
theorem test_ret : got (exec .ret (State.put 0xF3 [0x12] (base.writeReg .r7 0xF3))) (fun t => (t.pc, t.regs.get .r7)) =
    some (0x12, 0xF4) := by decide
/-- V71. -/
theorem test_jmp : got (step (State.put 0 [0x54, 2] (base.writeReg .r2 0x40))) (fun t => t.pc) = some 0x40 := by decide
/-- V74 and V75. -/
theorem test_jeq :
    got (exec (.jeq .r3) ((base.writeReg .r3 0x20).setFl 1)) (fun t => t.pc) = some 0x20 ∧
    got (exec (.jeq .r3) ((base.writeReg .r3 0x20).setFl 2)) (fun t => t.pc) = some 2 := by decide
/-- V78: an unwritten register is not read when the jump is not taken. -/
theorem test_jeq_not_read : got (exec (.jeq .r3) (unw.setFl 2)) (fun t => (t.runState, t.pc)) = some (.running, 2) := by
  decide
/-- V76 and V77. -/
theorem test_jne :
    got (exec (.jne .r3) ((base.writeReg .r3 0x20).setFl 4)) (fun t => t.pc) = some 0x20 ∧
    got (exec (.jne .r3) ((base.writeReg .r3 0x20).setFl 1)) (fun t => t.pc) = some 2 := by decide

/-! ## The cycle and its faults -/

/-- V6: an empty memory. No opcode is recorded. -/
theorem test_unwritten_opcode : got (step base) faultOf = some ⟨.faulted, 6, 0, none, some 0⟩ := by decide
/-- V4. -/
theorem test_illegal_register : got (step (State.put 0 [0x47, 8, 1] base)) faultOf =
    some ⟨.faulted, 4, 0, some 0x47, some 8⟩ := by decide
/-- V5: with R0 unwritten. The info names the register. -/
theorem test_unwritten_register : got (step (State.put 0 [0x47, 0, 1] unw)) (fun t => (faultOf t, t.fault.info, t.output)) =
    some (⟨.faulted, 6, 0, some 0x47, some 0⟩, .register .r0, []) := by decide
/-- V8: LDI at 254. -/
theorem test_operand_bounds : got (step (State.put 254 [0x82, 1] { base with pc := 254 })) faultOf =
    some ⟨.faulted, 3, 254, some 0x82, some 256⟩ := by decide
/-- V9, second step: the fetch at PC = 256. -/
theorem test_opcode_bounds : got (step { base with pc := 256 }) faultOf = some ⟨.faulted, 3, 256, none, some 256⟩ := by decide
/-- V65: POP on an empty stack. -/
theorem test_pop_unwritten : got (step (State.put 0 [0x46, 0] base)) (fun t => (faultOf t, t.regs.get .r7)) =
    some (⟨.faulted, 6, 0, some 0x46, some 0xF4⟩, 0xF4) := by decide
/-- R204: UnknownOpcode comes before the operand fetches, and an operand's BoundsFault before IllegalRegister. -/
theorem test_priority :
    got (step (State.put 255 [0xC0] { base with pc := 255 })) faultOf = some ⟨.faulted, 1, 255, some 0xC0, some 0xC0⟩ ∧
    got (step (State.put 254 [0xA0, 9] { base with pc := 254 })) faultOf = some ⟨.faulted, 3, 254, some 0xA0, some 256⟩ := by
  decide
/-- P6: the host's message. -/
theorem test_message : (got (step (State.put 3 [0x00] { base with pc := 3 })) State.diagnostic).join =
    some "Unknown opcode 00000000 at address 3".toList := by decide

/-! ## The loader (W7, W8, W9, R237, R239) -/

theorem test_parse_w7 : parseProgram "10000010 # LDI R0,8\n00000000\n\n# c\n  1000\n".toList = .ok [0x82, 0, 8] := by decide
theorem test_parse_xyz : parseProgram "xyz".toList = .error (.malformedProgram "xyz".toList) := by decide
theorem test_parse_256 : parseLine "100000000".toList = .malformed := by decide
theorem test_no_file : (boot Config.standard none).isOk = false ∧ LoadError.programNotFound.exitStatus = 2 := by decide
/-- W1: the image 00000001 halts at once. -/
theorem test_boot_hlt : (boot Config.standard (some "00000001\n".toList)).toOption.bind (fun s => got (step s) State.exitStatus) =
    some (some 0) := by decide
theorem test_trace : (State.put 255 [0x01] { unw with pc := 255 }).trace =
    ⟨255, [some 1, none, none], [none, none, none, none, none, none, none, some 0xF4]⟩ := by decide
theorem test_text : Instr.text (.ldi .r0 8) = "LDI R0,8".toList := by decide
/-- The invariant of memory holds at reset, and a write of a listed address replaces its cell. -/
theorem test_memory : State.reset.mem.wf ∧ Memory.write 3 9 [(1, 1), (3, 2), (5, 5)] = [(1, 1), (3, 9), (5, 5)] := by decide

/-! ## Witnesses: states and operands that meet the hypotheses of the statements -/

/-- PC at 253 with an ADD there: all three bytes used. -/
def atEnd : State := State.put 253 [0xA0, 7, 0] { base with pc := 253 }

theorem witness_DecodeOfEncode : Instr.wellFormed false (.ldi .r7 255) = true ∧ Instr.wellFormed true (.shr .r7 .r0) = true := by
  decide
theorem witness_DecodedBytesAreTheEncoding : decode true [0xAD, 7, 0, 5] = .ok (.shr .r7 .r0, [5]) := by decide
theorem witness_RegisterIndexIsTheWholeByte :
    (7#8).toNat ≤ 7 ∧ 7 < (8#8).toNat ∧ Instr.wellFormed base.cfg.extAlu (.add .r0 .r0) = true ∧
    1 ≤ registerOperands (.add .r0 .r0) ∧ (encode (.add .r0 .r0)).length = 2 + [255#8].length ∧
    (State.put 253 [0xA0, 8, 255] { base with pc := 253 }).runState = .running ∧
    BytesAtPc (State.put 253 [0xA0, 8, 255] { base with pc := 253 }) (Instr.opcode (.add .r0 .r0) :: 8#8 :: [255#8]) := by decide
theorem witness_ExtAluGatesTheExtension :
    Instr.isExtAlu (.not .r7) = true ∧ Instr.isExtAlu .hlt = false ∧ ∀ i : Instr, i.isExtAlu = true → [0x01#8].head? ≠ some i.opcode := by
  refine ⟨by decide, by decide, fun i h => ?_⟩
  cases i <;> simp [Instr.isExtAlu, Instr.opcode] at h ⊢ <;> decide
theorem witness_StepRunsTheDecodedInstruction :
    atEnd.runState = .running ∧ BytesAtPc atEnd [0xA0, 7, 0] ∧ decode atEnd.cfg.extAlu [0xA0, 7, 0] = .ok (.add .r7 .r0, []) := by
  decide
theorem witness_PlacedWordRunsNext :
    decodeTableWord 24 0x0700A3 = some (.div .r0 .r7) ∧ ({ base with pc := 253 } : State).pc.toNat ≤ 253 := by decide
/-- HLT at 255, and a 2-byte instruction at 254. -/
theorem witness_OnlyUsedBytesAreFetched :
    (∀ k, (h : k < (encode .hlt).length) → (State.put 255 [0x01] { base with pc := 255 }).mem.read (255 + k) = some (encode .hlt)[k]) ∧
    255 + (encode .hlt).length ≤ 256 ∧
    (∀ k, (h : k < (encode (.jmp .r7)).length) →
      (State.put 254 [0x54, 7] { base with pc := 254 }).mem.read (254 + k) = some (encode (.jmp .r7))[k]) ∧
    254 + (encode (.jmp .r7)).length ≤ 256 ∧ Instr.wellFormed base.cfg.extAlu (.jmp .r7) = true := by decide
/-- The clauses at their edges: PC 256, and PC 255 with its byte unwritten. -/
theorem witness_OpcodeFetchFaults :
    base.runState = .running ∧ 255 < ({ base with pc := 256 } : State).pc.toNat ∧
    ({ base with pc := 255 } : State).pc.toNat ≤ 255 ∧ base.mem.read 255 = none := by decide
theorem witness_UnknownOpcodeFaults :
    (State.put 255 [0x00] { base with pc := 255 }).mem.read 255 = some 0x00 ∧ ∀ i : Instr, i.opcode ≠ 0x00#8 := by
  refine ⟨by decide, fun i => ?_⟩
  cases i <;> simp only [Instr.opcode] <;> decide
/-- The clauses at their edges: the second operand at 256; an unwritten first operand at 255; b1 = 8; b1 = 7 and b2 = 8. -/
theorem witness_OperandFetchAndChecks :
    (State.put 254 [0xA0, 7] { base with pc := 254 }).mem.read 254 = some (Instr.opcode (.add .r0 .r0)) ∧
    (State.put 254 [0xA0, 7] { base with pc := 254 }).mem.read 255 ≠ none ∧ 255 < 254 + 2 ∧
    (State.put 254 [0xA0] { base with pc := 254 }).mem.read 255 = none ∧ 254 + 1 ≤ 255 ∧
    (State.put 253 [0xA0, 8, 0] { base with pc := 253 }).mem.read 254 = some 8 ∧ 7 < (8#8).toNat ∧
    (State.put 253 [0xA0, 7, 8] { base with pc := 253 }).mem.read 254 = some 7 ∧
    (State.put 253 [0xA0, 7, 8] { base with pc := 253 }).mem.read 255 = some 8 ∧
    registerOperands (.add .r0 .r0) = 2 ∧ 253 + 3 ≤ 256 ∧ Instr.wellFormed base.cfg.extAlu (.add .r0 .r0) = true := by decide
theorem witness_StoppedCoreTakesNoStep :
    got (exec .hlt base) (fun t => t.runState) = some .halted ∧ got (step base) (fun t => t.runState) = some .faulted := by decide
theorem witness_RunningCoreAlwaysSteps : base.runState = .running := by decide
theorem witness_NextPc :
    atEnd.pc.toNat ≤ 255 ∧ got (exec (.add .r7 .r0) atEnd) (fun t => (t.runState, t.pc)) = some (.running, 256) := by decide
theorem witness_FaultsArePrecise : base.runState = .running ∧ got (step base) (fun t => t.runState) = some .faulted := by decide
theorem witness_UnsupportedOperationIsUnreachable :
    (∀ x y, ∀ i ∈ [Instr.add x y, .sub x y, .mul x y, .cmp x y], 0x00#8 ≠ i.opcode) ∧
    (∀ x y, ∀ i ∈ [Instr.div x y, .and x y, .or x y, .xor x y, .not x, .shl x y, .shr x y], 0x00#8 ≠ i.opcode) ∧
    Instr.isExtAlu (.div .r0 .r0) = true ∧ got (step base) (fun t => t.runState) = some .faulted := by
  refine ⟨fun x y i h => ?_, fun x y i h => ?_, by decide, by decide⟩ <;>
    simp only [List.mem_cons, List.not_mem_nil, or_false] at h <;>
    rcases h with rfl | rfl | rfl | rfl | rfl | rfl | rfl <;> simp only [Instr.opcode] <;> decide
theorem witness_MarkedRegistersNeverFault : base.AllMarked ∧ base.fault.cause = .none ∧ Reaches base base := by
  refine ⟨fun r => by cases r <;> rfl, rfl, .refl⟩
theorem witness_ResetInput :
    unw.cfg.resetGpr = none ∧ base.cfg.resetGpr = some ⟨0, 0, 0, 0, 0, 0, 0⟩ ∧ base.mem = [] ∧
    (List.replicate 256 1#8).length ≤ 256 ∧ Reg.r0 ≠ .sp ∧ ({ base with runState := .halted } : State).runState ≠ .running :=
  ⟨rfl, rfl, rfl, by rw [List.length_replicate], by decide, by decide⟩
theorem witness_ProgramFileLoadsItsBytes :
    (List.replicate 256 1#8).length ≤ 256 ∧ 256 < (List.replicate 257 1#8).length := by
  rw [List.length_replicate, List.length_replicate]; decide
theorem base_inv : base.Inv :=
  ⟨by decide, .inl rfl, by decide, rfl, ⟨(fun h => by cases h), (fun h => absurd rfl h)⟩, (fun h => by cases h), (fun h => by cases h)⟩
theorem witness_StepKeepsInv : base.Inv ∧ ∃ t, step base = .next t := ⟨base_inv, _, rfl⟩
theorem witness_InvHoldsAfterReset : (boot Config.standard (some "00000001\n".toList)).isOk = true := by decide
/-- A step that stores. -/
theorem witness_StepOnlyAddsMarksAndOutput :
    got (step (State.put 0 [0x45, 0] base)) (fun t => t.mem.read 0xF3) = some (some 0) ∧ base.written.get .r0 = true ∧
    (State.put 0 [0x45, 0] base).mem.read 0 ≠ none := by decide
theorem witness_MemoryAccess : 255 ≤ 255 ∧ 255 < 256 ∧ base.mem.read 255 = none ∧ base.mem.wf := by decide

theorem witness_LdiRule : 7 < (8#8).toNat := by decide
theorem witness_PrnRule : Readable base .r7 ∧ ¬ Readable unw .r6 ∧ 7 < (8#8).toNat := by decide
/-- For AddRule, SubRule and MulRule. -/
theorem witness_AddSubMulRule :
    Readable base .r0 ∧ Readable base .r7 ∧ ¬ Readable unw .r0 ∧ Readable unw .r7 ∧ ¬ Readable unw .r6 ∧
    Instr.wellFormed false (.add .r0 .r0) = true ∧ Instr.wellFormed false (.sub .r0 .r0) = true ∧
    Instr.wellFormed false (.mul .r0 .r0) = true ∧ (7#8).toNat ≤ 7 ∧ 7 < (8#8).toNat := by decide
theorem witness_CmpRule :
    Readable base .r0 ∧ Readable base .r7 ∧ ¬ Readable unw .r0 ∧ Readable unw .r7 ∧ val base .r0 = val base .r1 ∧
    val base .r0 < val base .r7 := by decide
theorem witness_DivRule :
    ext.cfg.extAlu = true ∧ Readable ext .r0 ∧ Readable ext .r7 ∧ val ext .r7 ≠ 0 ∧ val ext .r0 = 0 ∧
    ¬ Readable unw .r0 ∧ Readable unw .r7 ∧ Instr.wellFormed true (.div .r0 .r0) = true := by decide
/-- For AndRule, OrRule, XorRule, ShlRule and ShrRule. -/
theorem witness_ExtAluRules :
    ext.cfg.extAlu = true ∧ Readable ext .r0 ∧ Readable ext .r7 ∧ ¬ Readable unw .r0 ∧ Readable unw .r7 ∧
    Instr.wellFormed true (.and .r0 .r0) = true ∧ Instr.wellFormed true (.or .r0 .r0) = true ∧
    Instr.wellFormed true (.xor .r0 .r0) = true ∧ Instr.wellFormed true (.shl .r0 .r0) = true ∧
    Instr.wellFormed true (.shr .r0 .r0) = true := by decide
theorem witness_NotRule :
    ext.cfg.extAlu = true ∧ Readable ext .r7 ∧ ¬ Readable unw .r0 ∧ Instr.wellFormed true (.not .r0) = true := by decide
/-- SP = 0, the edge of the wrap, for both an ordinary register and SP itself. -/
theorem witness_PushRule :
    Readable (base.writeReg .r7 0) .sp ∧ Readable (base.writeReg .r7 0) .r0 ∧ pushAddr (base.writeReg .r7 0) = 255 ∧
    Readable unw .sp ∧ ¬ Readable unw .r0 := by decide
theorem witness_PopRule :
    Readable (State.put 255 [9] (base.writeReg .r7 255)) .sp ∧
    (State.put 255 [9] (base.writeReg .r7 255)).mem.read (val (State.put 255 [9] (base.writeReg .r7 255)) .sp) = some 9 ∧
    base.mem.read (val base .sp) = none := by decide
/-- The clauses at their edges: pc0 = 253 completes, pc0 = 254 faults. -/
theorem witness_CallRule :
    Readable base .sp ∧ Readable base .r0 ∧ ({ base with pc := 253 } : State).pc.toNat + 2 ≤ 255 ∧
    255 < ({ base with pc := 254 } : State).pc.toNat + 2 ∧ Readable unw .sp ∧ ¬ Readable unw .r0 := by decide
theorem witness_RetRule :
    Readable (State.put 0 [9] (base.writeReg .r7 0)) .sp ∧
    (State.put 0 [9] (base.writeReg .r7 0)).mem.read (val (State.put 0 [9] (base.writeReg .r7 0)) .sp) = some 9 ∧
    Readable base .sp ∧ base.mem.read (val base .sp) = none := by decide
theorem witness_JmpRule : Readable base .r7 ∧ ¬ Readable unw .r0 := by decide
/-- For JeqRule and JneRule: E set, and E clear with G set. -/
theorem witness_JeqJneRule :
    (base.setFl 1).fl.getLsbD 0 = true ∧ Readable (base.setFl 1) .r7 ∧ (base.setFl 2).fl.getLsbD 0 = false ∧
    Readable (base.setFl 2) .r7 ∧ ¬ Readable (unw.setFl 1) .r0 ∧ ¬ Readable (unw.setFl 2) .r0 := by decide

/-- `PUSH R0; POP R0` at 0. -/
def pushPop : State := State.put 0 [0x45, 0, 0x46, 0] base
theorem witness_PushThenPopIsTheIdentity :
    pushPop.runState = .running ∧ Readable pushPop .sp ∧ Readable pushPop .r0 ∧
    BytesAtPc pushPop (encode (.push .r0) ++ encode (.pop .r0)) ∧ pushAddr pushPop ≠ pushPop.pc.toNat + 2 ∧
    pushAddr pushPop ≠ pushPop.pc.toNat + 3 := by decide
/-- `CALL R0` at 253, with a RET at R0 = 0. -/
def callRet : State := State.put 253 [0x50, 0] (State.put 0 [0x11] { base with pc := 253 })
theorem witness_CallThenRetReturns :
    callRet.runState = .running ∧ callRet.pc.toNat ≤ 253 ∧ Readable callRet .sp ∧ Readable callRet .r0 ∧
    BytesAtPc callRet (encode (.call .r0)) ∧
    got (step callRet) (fun t => t.mem.read t.pc.toNat) = some (some 0x11) := by decide
/-- `JMP R0` at 3 with R0 = 3 (V79). -/
def hang : State := State.put 3 [0x54, 0] { base.writeReg .r0 3 with pc := 3 }
theorem witness_JumpToItselfRunsForever :
    hang.runState = .running ∧ Readable hang .r0 ∧ BytesAtPc hang (encode (.jmp .r0)) ∧ val hang .r0 = hang.pc.toNat := by decide

theorem witness_RegisterWriterFrame :
    got (exec (.add .r0 .r7) base) (fun t => t.runState) = some .running ∧
    got (exec (.shr .r0 .r7) ext) (fun t => t.runState) = some .running := by decide
theorem witness_NoRegisterFrame :
    got (exec .hlt base) (fun t => t.runState) = some .halted ∧ got (exec (.cmp .r0 .r7) base) (fun t => t.runState) = some .running := by
  decide
theorem witness_StackWriterFrame :
    got (exec (.push .r0) base) (fun t => t.runState) = some .running ∧ got (exec (.call .r0) base) (fun t => t.runState) = some .running := by
  decide
theorem witness_StackReaderFrame :
    got (exec (.pop .r0) (State.put 0xF4 [1] base)) (fun t => t.runState) = some .running ∧
    got (exec .ret (State.put 0xF4 [1] base)) (fun t => t.runState) = some .running := by decide
theorem witness_FlagsRegister :
    (∀ ra, Instr.prn .r0 ≠ .jeq ra ∧ Instr.prn .r0 ≠ .jne ra) ∧ (∀ ra rb, Instr.prn .r0 ≠ .cmp ra rb) ∧
    (0x04#8).getLsbD 0 = (base.setFl 2).fl.getLsbD 0 ∧
    got (exec (.cmp .r0 .r7) base) (fun t => t.runState) = some .running ∧ Readable base .r0 ∧ Readable base .r7 := by
  refine ⟨fun _ => ⟨by simp, by simp⟩, fun _ _ => by simp, by decide⟩
/-- Both readings. -/
theorem witness_DivideByZeroInfo : ∀ d ∈ [DivideInfo.divisorIndex, .faultingPc],
    (divZero d).runState = .running ∧ (divZero d).cfg.extAlu = true ∧ (divZero d).cfg.divideInfo = d ∧
    BytesAtPc (divZero d) (encode (.div .r0 .r1)) ∧ Readable (divZero d) .r0 ∧ Readable (divZero d) .r1 ∧
    val (divZero d) .r1 = 0 ∧ val (divZero d) .r0 = 5 := by decide
theorem witness_HostReadsTheFinalState :
    got (exec .hlt base) State.exitStatus = some (some 0) ∧ got (step base) State.exitStatus = some (some 1) ∧
    base.exitStatus = none := by decide

end Sys2Proof.Tests
end

section
/-! PROOFS. The state (10_state.md): the next PC, the reset input, and the flags register FL. -/

namespace Sys2Proof.Machine

/-! ## The completed instruction -/

/-- An instruction that does not end in Faulted has had its effect. -/
theorem completes_of_exec {i : Instr} {s t : State} (h : exec i s = .next t) (hf : t.runState ≠ .faulted) :
    Completes i s t := by
  rcases exec_next h with hc | ⟨e, -, rfl⟩
  · exact hc
  · exact absurd (State.raise_runState s _ e) hf

/-! ## The next PC (R26) -/

/-- An advance of at most 3 from an address of a byte does not wrap (10_state.md R25). -/
theorem State.advance_pc_toNat {s : State} {n : Pc} (hs : s.pc.toNat ≤ 255) (hn : n.toNat ≤ 3) :
    (s.advance n).pc.toNat = s.pc.toNat + n.toNat := by
  rw [State.advance_pc, BitVec.toNat_add_of_lt (by omega)]

/-- Settles O15: the effect that each instruction completes with gives its PC, and no advance from 0..255 wraps. -/
theorem nextPc : Obligations.NextPc := by
  intro i s t hpc h hf
  have hc : Completes i s t := completes_of_exec h hf
  cases i with
  | hlt => subst hc; exact ⟨rfl, rfl⟩
  | ldi ra imm => subst hc; exact State.advance_pc_toNat hpc (by decide)
  | prn ra => obtain ⟨-, rfl⟩ := hc; exact State.advance_pc_toNat hpc (by decide)
  | cmp ra rb => obtain ⟨-, -, rfl⟩ := hc; exact State.advance_pc_toNat hpc (by decide)
  | add ra rb | sub ra rb | mul ra rb | div ra rb | and ra rb | or ra rb | xor ra rb | shl ra rb | shr ra rb =>
    obtain ⟨-, -, v, rfl⟩ := hc
    exact State.advance_pc_toNat hpc (by decide)
  | not ra => obtain ⟨-, v, rfl⟩ := hc; exact State.advance_pc_toNat hpc (by decide)
  | push ra => obtain ⟨-, v, rfl, -⟩ := hc; exact State.advance_pc_toNat hpc (by decide)
  | pop ra => obtain ⟨-, v, -, rfl⟩ := hc; exact State.advance_pc_toNat hpc (by decide)
  | call ra => obtain ⟨-, -, -, rfl⟩ := hc; exact Byte.toPc_toNat _
  | jmp ra => obtain ⟨-, rfl⟩ := hc; exact Byte.toPc_toNat _
  | ret =>
    obtain ⟨-, v, hv, rfl⟩ := hc
    have hb : v.toNat < 256 := v.isLt
    exact ⟨by simpa using hv, by rw [State.setPc_pc, Byte.toPc_toNat]; omega⟩
  | jeq ra | jne ra =>
    rcases hc with ⟨hE, -, rfl⟩ | ⟨hE, rfl⟩ <;> rw [flagE] at hE <;> simp only [hE]
    · exact Byte.toPc_toNat _
    · exact State.advance_pc_toNat hpc (by decide)

/-! ## The reset input (R230) and the load after it (R236) -/

@[simp] theorem State.resetInput_regs (s : State) : s.resetInput.regs = Regs.atReset s.cfg.resetGpr := rfl

@[simp] theorem State.resetInput_written (s : State) :
    s.resetInput.written = Regs.marksAtReset s.cfg.resetGpr.isSome := rfl

@[simp] theorem State.resetInput_mem (s : State) : s.resetInput.mem = s.mem := rfl

@[simp] theorem State.loadImage_mem (s : State) (image : List Byte) :
    (s.loadImage image).mem = Memory.place 0 image s.mem := rfl

@[simp] theorem Regs.atReset_get_sp (gpr : Option Gprs) : (Regs.atReset gpr).get .sp = Config.spInit := by
  cases gpr <;> rfl

theorem Regs.marksAtReset_get_of_ne_sp (supplied : Bool) {r : Reg} (h : r ≠ .sp) :
    (Regs.marksAtReset supplied).get r = supplied := by
  cases r with
  | r7 => exact absurd rfl h
  | r0 | r1 | r2 | r3 | r4 | r5 | r6 => rfl

/-- An image placed in a memory with no written byte is all that it reads as. -/
theorem Memory.read_place_zero_nil {image : List Byte} (h : image.length ≤ 256) (a : Nat) :
    (Memory.place 0 image []).read a = image[a]? := by
  rw [Memory.read_place 0 a image [] (by omega)]
  split
  · rfl
  · rw [Memory.read_nil, List.getElem?_eq_none (by omega)]

/-- Settles O20, field by field; a core that is not Running has no next state because `step_next` says so. -/
theorem resetInput : Obligations.ResetInput := by
  refine ⟨fun s => ⟨rfl, rfl, Regs.atReset_get_sp _, rfl, rfl, rfl, rfl, rfl, rfl, ?stopped, ?unsupplied, ?supplied⟩,
    ?loaded⟩
  case stopped => exact fun hs t h => hs (step_next h).1
  case unsupplied =>
    intro hg r hr
    rw [State.resetInput_written, hg]
    exact Regs.marksAtReset_get_of_ne_sp _ hr
  case supplied =>
    intro g hg
    rw [State.resetInput_written, State.resetInput_regs, hg]
    rfl
  case loaded =>
    intro s image hm hl a
    rw [State.loadImage_mem, State.resetInput_mem, hm]
    exact Memory.read_place_zero_nil hl a

/-! ## Only CMP writes FL (R29) -/

theorem Completes.fl_eq {i : Instr} {s t : State} (hc : Completes i s t) (hi : ∀ ra rb, i ≠ .cmp ra rb) :
    t.fl = s.fl := by
  cases i with
  | hlt => subst hc; rfl
  | ldi ra imm => subst hc; rfl
  | cmp ra rb => exact absurd rfl (hi ra rb)
  | prn ra | jmp ra => obtain ⟨-, rfl⟩ := hc; rfl
  | add ra rb | sub ra rb | mul ra rb | div ra rb | and ra rb | or ra rb | xor ra rb | shl ra rb | shr ra rb =>
    obtain ⟨-, -, v, rfl⟩ := hc; rfl
  | not ra => obtain ⟨-, v, rfl⟩ := hc; rfl
  | push ra => obtain ⟨-, v, rfl, -⟩ := hc; rfl
  | pop ra => obtain ⟨-, v, -, rfl⟩ := hc; rfl
  | ret => obtain ⟨-, v, -, rfl⟩ := hc; rfl
  | call ra => obtain ⟨-, -, -, rfl⟩ := hc; rfl
  | jeq ra | jne ra => rcases hc with ⟨-, -, rfl⟩ | ⟨-, rfl⟩ <;> rfl

/-- Every instruction but CMP leaves FL, whether it completes or faults. -/
theorem exec_fl_eq {i : Instr} {s t : State} (h : exec i s = .next t) (hi : ∀ ra rb, i ≠ .cmp ra rb) :
    t.fl = s.fl := by
  rcases exec_next h with hc | ⟨e, -, rfl⟩
  · exact hc.fl_eq hi
  · rfl

/-- A CMP that completes leaves exactly one of E, G and L set (42_alu.md R135). -/
theorem execCmp_fl {ra rb : Reg} {s t : State} (h : exec (.cmp ra rb) s = .next t) (hf : t.runState ≠ .faulted) :
    t.fl = 0x01#8 ∨ t.fl = 0x02#8 ∨ t.fl = 0x04#8 := by
  obtain ⟨-, -, rfl⟩ := completes_of_exec h hf
  rcases cmpFlags_cases (s.regs.get ra) (s.regs.get rb) with ⟨-, e⟩ | ⟨-, e⟩ | ⟨-, e⟩
  · exact .inl e
  · exact .inr (.inl e)
  · exact .inr (.inr e)

/-! ## Which operations read FL (R29)

Another FL changes nothing that a shared operation reads, and passes through to the state that it answers. -/

section
variable (s : State) (fl : Byte)

@[simp] theorem State.readReg_setFl (r : Reg) : (s.setFl fl).readReg r = s.readReg r := rfl
@[simp] theorem State.readTwo_setFl (ra rb : Reg) : (s.setFl fl).readTwo ra rb = s.readTwo ra rb := rfl
@[simp] theorem State.stackTop_setFl : (s.setFl fl).stackTop = s.stackTop := rfl
@[simp] theorem State.returnByte_setFl : (s.setFl fl).returnByte = s.returnByte := rfl

theorem State.setPc_setFl (p : Pc) : (s.setFl fl).setPc p = (s.setPc p).setFl fl := rfl
theorem State.setMem_setFl (m : Memory) : (s.setFl fl).setMem m = (s.setMem m).setFl fl := rfl
theorem State.emit_setFl (v : Byte) : (s.setFl fl).emit v = (s.emit v).setFl fl := rfl
theorem State.advance_setFl (n : Pc) : (s.setFl fl).advance n = (s.advance n).setFl fl := rfl
theorem State.writeReg_setFl (r : Reg) (v : Byte) : (s.setFl fl).writeReg r v = (s.writeReg r v).setFl fl := rfl

theorem State.decSp_setFl : (s.setFl fl).decSp = (State.setFl · fl) <$> s.decSp := by
  simp [State.decSp, State.writeReg_setFl]

theorem State.incSp_setFl : (s.setFl fl).incSp = (State.setFl · fl) <$> s.incSp := by
  simp [State.incSp, State.writeReg_setFl]

theorem State.setStackTop_setFl (v : Byte) :
    (s.setFl fl).setStackTop v = (State.setFl · fl) <$> s.setStackTop v := by
  simp [State.setStackTop, State.setMem_setFl]

theorem State.jumpTo_setFl (ra : Reg) : (s.setFl fl).jumpTo ra = (State.setFl · fl) <$> s.jumpTo ra := by
  simp [State.jumpTo, State.setPc_setFl]

/-- An ALU operation with a result leaves FL out of its write-back. -/
theorem State.aluTwo_setFl {i : Instr} (hi : hasResult i = true) (ra rb : Reg) :
    (s.setFl fl).aluTwo i.opcode ra rb = (State.setFl · fl) <$> s.aluTwo i.opcode ra rb := by
  unfold State.aluTwo
  rw [State.readTwo_setFl, State.setFl_cfg]
  cases s.readTwo ra rb with
  | error e => rfl
  | ok ab =>
    obtain ⟨a, b⟩ := ab
    rcases alu_hasResult hi s.cfg.extAlu a b rb with ⟨v, e⟩ | ⟨-, e⟩ | ⟨-, -, e⟩ <;> simp only [Except.ok_bind, e] <;> rfl

theorem State.aluOne_setFl {i : Instr} (hi : hasResult i = true) (ra : Reg) :
    (s.setFl fl).aluOne i.opcode ra = (State.setFl · fl) <$> s.aluOne i.opcode ra := by
  unfold State.aluOne
  rw [State.readReg_setFl, State.setFl_cfg]
  cases s.readReg ra with
  | error e => rfl
  | ok a =>
    rcases alu_hasResult hi s.cfg.extAlu a a ra with ⟨v, e⟩ | ⟨-, e⟩ | ⟨-, -, e⟩ <;> simp only [Except.ok_bind, e] <;> rfl

variable {s fl}

/-- The end of an instruction whose effect passes another FL through. -/
theorem State.complete_setFl {op : Byte} {e e' : Except Trap State} (h : e' = (State.setFl · fl) <$> e) :
    (s.setFl fl).complete op e' = mapNext (State.setFl · fl) (s.complete op e) := by
  subst h
  cases e <;> rfl

theorem exec_setFl_of_hasResult {i : Instr} (hi : hasResult i = true) :
    exec i (s.setFl fl) = mapNext (State.setFl · fl) (exec i s) := by
  cases i with
  | add ra rb | sub ra rb | mul ra rb | div ra rb | and ra rb | or ra rb | xor ra rb | shl ra rb | shr ra rb =>
    exact State.complete_setFl (State.aluTwo_setFl s fl hi ra rb)
  | not ra => exact State.complete_setFl (State.aluOne_setFl s fl hi ra)
  | hlt | ldi | prn | cmp | push | pop | call | ret | jmp | jeq | jne => cases hi

/-- Another FL with the same bit E: the same branch, and the same effect. -/
theorem exec_setFl_of_flagE {i : Instr} {ra : Reg} (hi : i = .jeq ra ∨ i = .jne ra) (hE : flagE fl = flagE s.fl) :
    exec i (s.setFl fl) = mapNext (State.setFl · fl) (exec i s) := by
  rcases hi with rfl | rfl <;> refine State.complete_setFl ?_ <;> rw [State.setFl_fl, hE] <;> split
  · exact State.jumpTo_setFl s fl ra
  · rfl
  · rfl
  · exact State.jumpTo_setFl s fl ra

/-- An instruction other than CMP passes another FL through, when it does not read FL or the bit E is the same. -/
theorem exec_setFl {i : Instr} (hE : (∀ ra, i ≠ .jeq ra ∧ i ≠ .jne ra) ∨ flagE fl = flagE s.fl)
    (hi : ∀ ra rb, i ≠ .cmp ra rb) : exec i (s.setFl fl) = mapNext (State.setFl · fl) (exec i s) := by
  cases i with
  | cmp ra rb => exact absurd rfl (hi ra rb)
  | jeq ra => exact exec_setFl_of_flagE (.inl rfl) (hE.resolve_left fun h => (h ra).1 rfl)
  | jne ra => exact exec_setFl_of_flagE (.inr rfl) (hE.resolve_left fun h => (h ra).2 rfl)
  | add | sub | mul | div | and | or | xor | not | shl | shr => exact exec_setFl_of_hasResult rfl
  | hlt | ldi => rfl
  | prn ra => exact State.complete_setFl (by simp [State.emit_setFl, State.advance_setFl])
  | push ra => exact State.complete_setFl (by simp [State.decSp_setFl, State.setStackTop_setFl, State.advance_setFl])
  | pop ra => exact State.complete_setFl (by simp [State.writeReg_setFl, State.incSp_setFl, State.advance_setFl])
  | call ra => exact State.complete_setFl (by simp [State.decSp_setFl, State.setStackTop_setFl, State.jumpTo_setFl])
  | ret => exact State.complete_setFl (by simp [State.incSp_setFl, State.setPc_setFl])
  | jmp ra => exact State.complete_setFl (State.jumpTo_setFl s fl ra)

/-- A CMP of two written registers replaces FL whole. -/
theorem execCmp_setFl {ra rb : Reg} (ha : Readable s ra) (hb : Readable s rb) :
    exec (.cmp ra rb) (s.setFl fl) = exec (.cmp ra rb) s := by
  simp only [exec, execCmp, State.aluTwo, State.readTwo_setFl, State.readTwo_marked ha hb, Except.ok_bind, alu_cmp]
  rfl

end

/-- Settles O55: what writes FL is read off the completed effects, and what reads FL off the operations' own laws. -/
theorem flagsRegister : Obligations.FlagsRegister :=
  ⟨fun _ _ _ h hi => exec_fl_eq h hi, fun _ _ _ _ h hf => execCmp_fl h hf, fun _ _ _ hE hi => exec_setFl hE hi,
    fun _ _ _ _ ha hb => execCmp_setFl ha hb, rfl⟩

end Sys2Proof.Machine
end

section
/-! PROOFS. The encoding and the instruction cycle (30_encoding.md): the opcode byte, the operand bytes, the faults of
the fetch in their order. -/

namespace Sys2Proof

open Machine

/-! ## The opcode byte (R81, R85, R89) -/

theorem encode_length (i : Instr) : (encode i).length = i.operandBytes.length + 1 := rfl

theorem operandCount_eq_div (op : Byte) : operandCount op = op.toNat / 64 := by
  have := op.isLt
  rw [operandCount, BitVec.extractLsb'_toNat, Nat.shiftRight_eq_div_pow]
  omega

/-- The number of operand bytes of a format (R82). -/
def Entry.operandBytes : Entry → Nat
  | .none _ => 0
  | .reg _ => 1
  | .regReg _ | .regImm _ => 2

/-- How many operands of a format are register indices (R88). -/
def Entry.registers : Entry → Nat
  | .none _ => 0
  | .reg _ | .regImm _ => 1
  | .regReg _ => 2

theorem Instr.entry_operandBytes (i : Instr) : i.entry.operandBytes = i.operandBytes.length := by
  cases i <;> rfl

theorem Instr.entry_registers (i : Instr) : i.entry.registers = registerOperands i := by
  cases i <;> rfl

theorem operandBytes_length_le_two (i : Instr) : i.operandBytes.length ≤ 2 := by
  rw [← Instr.entry_operandBytes]
  cases i.entry <;> simp [Entry.operandBytes]

theorem registerOperands_le (i : Instr) : registerOperands i ≤ i.operandBytes.length := by
  rw [← Instr.entry_operandBytes, ← Instr.entry_registers]
  cases i.entry <;> simp [Entry.operandBytes, Entry.registers]

theorem opcode_toNat_lt (i : Instr) : i.opcode.toNat < 192 := by
  have hlen : i.opcode.toNat / 64 ≤ 2 := by
    rw [← operandCount_eq_div, operandCount_opcode]
    exact operandBytes_length_le_two i
  omega

theorem activeEntry_of_wellFormed {ext : Bool} {i : Instr} (hw : i.wellFormed ext = true) :
    activeEntry ext i.opcode = some i.entry := by
  rw [activeEntry_opcode, if_pos hw]

/-- A row of the active map makes some instruction, so its opcode is that of a well-formed instruction. -/
theorem activeEntry_eq_none {ext : Bool} {op : Byte} (h : ∀ i : Instr, i.wellFormed ext = true → i.opcode ≠ op) :
    activeEntry ext op = none := by
  cases he : activeEntry ext op with
  | none => rfl
  | some e =>
    have hs := activeEntry_sound he
    cases e with
    | none i => exact absurd hs.1 (h i hs.2.2)
    | reg mk => exact absurd (hs .r0).1 (h _ (hs .r0).2.2)
    | regReg mk => exact absurd (hs .r0 .r0).1 (h _ (hs .r0 .r0).2.2)
    | regImm mk => exact absurd (hs .r0 0).1 (h _ (hs .r0 0).2.2)

/-- No instruction has the opcode 0x00: no map holds it. -/
theorem opcode_ne_zero (i : Instr) : i.opcode ≠ 0x00#8 := by
  intro h
  have ha : activeEntry true i.opcode = some i.entry := activeEntry_of_wellFormed (by simp [Instr.wellFormed])
  have hz : activeEntry true 0x00#8 = none := rfl
  rw [h, hz] at ha
  cases ha

/-- Settles O4: both lengths are those of the operand bytes. -/
theorem instructionLength : Obligations.InstructionLength := by
  intro i
  refine ⟨?_, by cases i <;> rfl⟩
  rw [← lengthOf_opcode, lengthOf, operandCount_eq_div]

/-! ## Decoding after the opcode, when it fails (R90, R93)

The three failures after a legal opcode, for every way of reading the operand bytes: the decoder of a list of bytes and
the fetch of the core are both such readings. -/

section
variable {ε : Type} {reject : Reject → ε} {read : Nat → Except ε Byte} {ext : Bool} {i : Instr}

theorem decodeOperands_unknown {op : Byte} (h : activeEntry ext op = none) :
    decodeOperands reject read ext op = .error (reject (.unknownOpcode op)) := by
  rw [decodeOperands, h]

/-- The first operand byte that cannot be read decides, before any register check. -/
theorem decodeOperands_read_error {k : Nat} {e : ε} (hw : i.wellFormed ext = true) (h1 : 1 ≤ k)
    (hk : k ≤ i.operandBytes.length) (hbefore : ∀ j, 1 ≤ j → j < k → ∃ b, read j = .ok b) (he : read k = .error e) :
    decodeOperands reject read ext i.opcode = .error e := by
  rw [← Instr.entry_operandBytes] at hk
  rw [decodeOperands, activeEntry_of_wellFormed hw]
  cases hi : i.entry with
  | none j => simp only [hi, Entry.operandBytes] at hk; omega
  | reg mk =>
    obtain rfl : k = 1 := by simp only [hi, Entry.operandBytes] at hk; omega
    simp [he]
  | regReg mk | regImm mk =>
    obtain rfl | rfl : k = 1 ∨ k = 2 := by simp only [hi, Entry.operandBytes] at hk; omega
    · simp [he]
    · obtain ⟨b1, hb1⟩ := hbefore 1 (by omega) (by omega)
      simp [hb1, he]

/-- Once all operand bytes are read, a first register index above 7 is rejected. -/
theorem decodeOperands_first_illegal {b1 : Byte} (hw : i.wellFormed ext = true) (hr : 1 ≤ registerOperands i)
    (hall : ∀ k, 1 ≤ k → k ≤ i.operandBytes.length → ∃ b, read k = .ok b) (h1 : read 1 = .ok b1) (hb : 7 < b1.toNat) :
    decodeOperands reject read ext i.opcode = .error (reject (.illegalRegister b1)) := by
  rw [← Instr.entry_registers] at hr
  rw [← Instr.entry_operandBytes] at hall
  rw [decodeOperands, activeEntry_of_wellFormed hw]
  cases hi : i.entry with
  | none j => simp [hi, Entry.registers] at hr
  | reg mk => simp [h1, regOperand_illegal reject hb]
  | regReg mk | regImm mk =>
    obtain ⟨b2, h2⟩ := hall 2 (by omega) (by simp [hi, Entry.operandBytes])
    simp [h1, h2, regOperand_illegal reject hb]

/-- A second register index above 7 is rejected when the first one names a register. -/
theorem decodeOperands_second_illegal {b1 b2 : Byte} (hw : i.wellFormed ext = true) (hr : registerOperands i = 2)
    (h1 : read 1 = .ok b1) (h2 : read 2 = .ok b2) (hb1 : b1.toNat ≤ 7) (hb2 : 7 < b2.toNat) :
    decodeOperands reject read ext i.opcode = .error (reject (.illegalRegister b2)) := by
  rw [← Instr.entry_registers] at hr
  rw [decodeOperands, activeEntry_of_wellFormed hw]
  cases hi : i.entry with
  | none j | reg mk | regImm mk => simp [hi, Entry.registers] at hr
  | regReg mk =>
    rcases regOperand_cases reject b1 with ⟨ra, hra, -⟩ | ⟨hlt, -⟩
    · simp [h1, h2, hra, regOperand_illegal reject hb2]
    · omega

end

/-! ## Decoding a list of bytes -/

theorem byteAt_of_lt {bytes : List Byte} {k : Nat} (h : k < bytes.length) : byteAt bytes k = .ok bytes[k] := by
  rw [byteAt, List.getElem?_eq_getElem h]

/-- What the operands fail with, the decoder of the list fails with. -/
theorem decode_cons_error {ext : Bool} {op : Byte} {rest : List Byte} {e : DecodeError}
    (h : decodeOperands .rejected (byteAt (op :: rest)) ext op = .error e) : decode ext (op :: rest) = .error e := by
  rw [decode, byteAt_of_lt (Nat.zero_lt_succ _), Except.ok_bind, List.getElem_cons_zero, h, Except.error_bind]

theorem decode_first_illegal {ext : Bool} {i : Instr} {b : Byte} {more : List Byte} (hw : i.wellFormed ext = true)
    (hr : 1 ≤ registerOperands i) (hb : 7 < b.toNat) (hlen : (encode i).length ≤ 2 + more.length) :
    decode ext (i.opcode :: b :: more) = .error (.rejected (.illegalRegister b)) := by
  rw [encode_length] at hlen
  refine decode_cons_error (decodeOperands_first_illegal hw hr (fun k _ hk => ⟨_, byteAt_of_lt ?_⟩) rfl hb)
  simp only [List.length_cons]
  omega

/-! ## How many opcodes are legal (R89) -/

theorem findRow_eq_find? (op : Byte) (rows : List Row) : findRow op rows = rows.find? (·.opcode = op) := by
  induction rows with
  | nil => rfl
  | cons row rows ih => by_cases h : row.opcode = op <;> simp [findRow, h, ih]

theorem activeEntry_isSome_iff {ext : Bool} {op : Byte} :
    (activeEntry ext op).isSome = true ↔ op ∈ (activeMap ext).map Row.opcode := by
  simp [activeEntry, findRow_eq_find?]

/-- With zeros as operand bytes, the opcode alone decides: every operand is there, and 0 names R0. -/
theorem decode_zeros_isOk (ext : Bool) (op : Byte) :
    (decode ext [op, 0, 0]).isOk = (activeEntry ext op).isSome := by
  have h0 : byteAt [op, 0, 0] 0 = .ok op := rfl
  rw [decode, h0, Except.ok_bind, decodeOperands]
  cases activeEntry ext op with
  | none => rfl
  | some e => cases e <;> rfl

theorem activeMap_opcodes_nodup (ext : Bool) : ((activeMap ext).map Row.opcode).Nodup := by
  cases ext <;> decide

/-- The legal opcode bytes are those of the active map's rows, one each. -/
theorem legalOpcodes_length (ext : Bool) :
    ((List.range 256).filter fun n => (decode ext [BitVec.ofNat 8 n, 0, 0]).isOk).length = (activeMap ext).length := by
  have hmem (n : Nat) : n ∈ (List.range 256).filter (fun n => (decode ext [BitVec.ofNat 8 n, 0, 0]).isOk) ↔
      n ∈ ((activeMap ext).map Row.opcode).map BitVec.toNat := by
    rw [List.mem_filter, List.mem_range, decode_zeros_isOk, activeEntry_isSome_iff,
      List.mem_map (f := BitVec.toNat)]
    constructor
    · exact fun ⟨hn, h⟩ => ⟨_, h, Nat.mod_eq_of_lt hn⟩
    · rintro ⟨op, h, rfl⟩
      exact ⟨op.isLt, by rwa [BitVec.ofNat_toNat, BitVec.setWidth_eq]⟩
  have hperm := (List.perm_ext_iff_of_nodup (List.nodup_range.filter _)
    ((activeMap_opcodes_nodup ext).map fun _ _ => BitVec.eq_of_toNat_eq)).2 hmem
  rw [hperm.length_eq, List.length_map, List.length_map]

end Sys2Proof

namespace Sys2Proof.Machine

/-! ## Fetching a byte of the instruction (R91, R92) -/

section
variable {s : State}

theorem State.fetchByte_above {k : Nat} (h : 255 < s.pc.toNat + k) :
    s.fetchByte k = .error (.boundsFault (s.pc.toNat + k)) := by
  rw [State.fetchByte, memRead_eq, if_neg (by omega)]

theorem State.fetchByte_unwritten {k : Nat} (h : s.pc.toNat + k ≤ 255) (hm : s.mem.read (s.pc.toNat + k) = none) :
    s.fetchByte k = .error (.unwrittenByte (s.pc.toNat + k)) := by
  rw [State.fetchByte, memRead_eq, if_pos (by omega), hm]

theorem State.exists_fetchByte {k : Nat} (h : s.pc.toNat + k ≤ 255) (hm : s.mem.read (s.pc.toNat + k) ≠ none) :
    ∃ b, s.fetchByte k = .ok b := by
  obtain ⟨b, hb⟩ := Option.ne_none_iff_exists'.1 hm
  exact ⟨b, State.fetchByte_ok_iff.2 ⟨by omega, hb⟩⟩

theorem State.fetchByte_of_bytesAtPc {bytes : List Byte} (hb : BytesAtPc s bytes) {k : Nat} (hk : k < bytes.length) :
    s.fetchByte k = .ok bytes[k] :=
  State.fetchByte_ok_iff.2 (hb k hk)

/-! ## The step -/

theorem step_halted (h : s.runState = .halted) : step s = .fault .coreHalted := by
  rw [step, h]

theorem step_faulted (h : s.runState = .faulted) : step s = .fault .coreFaulted := by
  rw [step, h]

/-- What decoding after the opcode fails with is the step's only effect. -/
theorem step_decode_fault {op : Byte} {t : Trap} (h : s.runState = .running) (h0 : s.fetchByte 0 = .ok op)
    (hd : decodeOperands Trap.ofReject s.fetchByte s.cfg.extAlu op = .error t) :
    step s = .next (s.raise (some op) t) := by
  rw [step_of_opcode h h0, hd]

/-- The bytes of a well-formed instruction at the PC are executed. -/
theorem step_of_bytesAtPc {i : Instr} (h : s.runState = .running) (hw : i.wellFormed s.cfg.extAlu = true)
    (hb : BytesAtPc s (encode i)) : step s = exec i s :=
  step_exec h hw (State.fetchByte_of_bytesAtPc hb (Nat.zero_lt_succ _)) fun _ hk =>
    State.fetchByte_of_bytesAtPc hb (Nat.succ_lt_succ hk)

end

/-- Settles O9: the bytes of the encoding are all that the fetch reads. -/
theorem onlyUsedBytesAreFetched : Obligations.OnlyUsedBytesAreFetched := by
  intro s i h hw hread hend
  exact step_of_bytesAtPc h hw fun k hk => ⟨by omega, hread k hk⟩

/-- Settles O10: the opcode fetch is the first thing that a step does. -/
theorem opcodeFetchFaults : Obligations.OpcodeFetchFaults := by
  intro s h
  refine ⟨fun hpc => ?above, fun hinv => hinv.pcRange, fun hpc hm => ?unwritten⟩
  case above => exact step_opcode_fault h (State.fetchByte_above (k := 0) hpc)
  case unwritten => exact step_opcode_fault h (State.fetchByte_unwritten (k := 0) hpc hm)

/-- Settles O11: a byte outside the active map is no instruction's opcode, and the map has as many rows as there are legal
opcode bytes. -/
theorem unknownOpcodeFaults : Obligations.UnknownOpcodeFaults := by
  refine ⟨fun s op h hpc hm hno => ?_, fun i => ⟨opcode_ne_zero i, opcode_toNat_lt i⟩, legalOpcodes_length false,
    legalOpcodes_length true⟩
  exact step_decode_fault h (State.fetchByte_ok_iff.2 ⟨by omega, hm⟩) (decodeOperands_unknown (activeEntry_eq_none hno))

/-- Settles O12: a read that fails comes before the register checks, and operand a's check before operand b's. -/
theorem operandFetchAndChecks : Obligations.OperandFetchAndChecks := by
  intro s i h hw hpc hop
  have h0 : s.fetchByte 0 = .ok i.opcode := State.fetchByte_ok_iff.2 ⟨by omega, hop⟩
  have hlen := encode_length i
  have hregs := registerOperands_le i
  refine ⟨fun k hk1 hk hbefore => ?reads, fun b1 hr hend hb1 hb2 hlt => ?first,
    fun b1 b2 hr hend hb1 hb2 hle hlt => ?second⟩
  case reads =>
    have hreads : ∀ j, 1 ≤ j → j < k → ∃ b, s.fetchByte j = .ok b := fun j hj hjk =>
      State.exists_fetchByte (hbefore j hj hjk).1 (hbefore j hj hjk).2
    have hfault {t : Trap} (ht : s.fetchByte k = .error t) : step s = .next (s.raise (some i.opcode) t) :=
      step_decode_fault h h0 (decodeOperands_read_error hw hk1 (by omega) hreads ht)
    exact ⟨fun ha => hfault (State.fetchByte_above ha), fun ha hm => hfault (State.fetchByte_unwritten ha hm)⟩
  case first =>
    have h1 : s.fetchByte 1 = .ok b1 := State.fetchByte_ok_iff.2 ⟨by omega, hb1⟩
    refine step_decode_fault h h0 (decodeOperands_first_illegal hw hr (fun k hk1 hk => ?_) h1 hlt)
    have hle := operandBytes_length_le_two i
    obtain rfl | rfl : k = 1 ∨ k = 2 := by omega
    · exact ⟨b1, h1⟩
    · exact State.exists_fetchByte (by omega) (hb2 (by omega))
  case second =>
    exact step_decode_fault h h0 (decodeOperands_second_illegal hw hr
      (State.fetchByte_ok_iff.2 ⟨by omega, hb1⟩) (State.fetchByte_ok_iff.2 ⟨by omega, hb2⟩) hle hlt)

/-- Settles O5: the byte names its register or none, and the decoder's check of the first operand needs no other byte's
value. -/
theorem registerIndexIsTheWholeByte : Obligations.RegisterIndexIsTheWholeByte := by
  refine ⟨fun b hb => ?named, fun b hb => Reg.ofByte_eq_none_iff.2 hb, Reg.ofByte_toByte,
    fun ext i b more hw hr hb hlen => decode_first_illegal hw hr hb hlen, fun s i b more h hw hr hb hlen hbytes => ?step⟩
  case named =>
    cases hr : Reg.ofByte b with
    | none => exact absurd (Reg.ofByte_eq_none_iff.1 hr) (by omega)
    | some r => exact ⟨r, rfl, Reg.toByte_of_ofByte hr⟩
  case step =>
    rw [encode_length] at hlen
    have hfetch {k : Nat} (hk : k < more.length + 2) := State.fetchByte_of_bytesAtPc hbytes hk
    exact step_decode_fault h (hfetch (k := 0) (by omega)) (decodeOperands_first_illegal hw hr
      (fun k _ hk => ⟨_, hfetch (k := k) (by omega)⟩) (hfetch (k := 1) (by omega)) hb)

/-- Settles O13: the run state alone decides, and the reset input sets it. -/
theorem stoppedCoreTakesNoStep : Obligations.StoppedCoreTakesNoStep :=
  fun _ => ⟨step_halted, step_faulted, rfl⟩

end Sys2Proof.Machine
end

section
/-! PROOFS. The system instruction HLT (40_system.md). -/

namespace Sys2Proof

open Machine

/-- HLT has no operand bytes: its opcode is its whole encoding (R83). -/
theorem encode_hlt : encode .hlt = [0x01#8] := rfl

/-- HLT reads nothing that could fail, so it completes at every state, by the law of a completed effect. -/
theorem exec_hlt (s : State) : exec .hlt s = .next { s with pc := 0, runState := .halted } :=
  State.complete_ok s { s.setPc 0 with runState := .halted } Opcode.hlt

/-- Settles O27: the encoding is the opcode alone, and the effect needs no condition on the state. -/
theorem hltRule : Obligations.HltRule :=
  ⟨encode_hlt, exec_hlt⟩

end Sys2Proof
end

section
/-! PROOFS. The form of a one-register instruction (30_encoding.md), and the frame of a register write. -/

namespace Sys2Proof.Machine

/-- An opcode with one register operand, whose check is the only one that can fail (R83, R86). -/
theorem oneRegisterForm_of_operandBytes {op : Byte} {mk : Reg → Instr} (hop : ∀ ra, (mk ra).opcode = op)
    (hbytes : ∀ ra, (mk ra).operandBytes = [ra.toByte]) (hregs : ∀ ra, 1 ≤ registerOperands (mk ra)) :
    OneRegisterForm op mk := by
  intro ra ext
  have henc : encode (mk ra) = [op, ra.toByte] := by rw [encode, hop, hbytes]
  refine ⟨henc, fun hw b1 hb => ?_⟩
  rw [← hop ra]
  exact decode_first_illegal hw (hregs ra) hb (by rw [henc]; exact Nat.le_refl 2)

section
variable (s : State)

theorem keepsRegs_writeReg (r : Reg) (v : Byte) : KeepsRegs [r] s (s.writeReg r v) := fun _ hq =>
  have hne := List.ne_of_not_mem_cons hq
  ⟨Regs.get_set_ne s.regs v hne, Regs.get_set_ne s.written true hne⟩

/-- An instruction whose effect is `x[r] <- v; pc <- pc0 + n` keeps everything but `x[r]` and PC. -/
theorem keepsBut_writeReg_advance (r : Reg) (v : Byte) (n : Pc) :
    KeepsBut [r] [] s ((s.writeReg r v).advance n) :=
  ⟨keepsRegs_writeReg s r v, fun _ _ => rfl, rfl, rfl, rfl, rfl, rfl⟩

theorem readable_writeReg_advance (r : Reg) (v : Byte) (n : Pc) : Readable ((s.writeReg r v).advance n) r :=
  Regs.get_set_self s.written r true

end

end Sys2Proof.Machine
end

section
/-! PROOFS. The data instructions LDI and PRN (41_data.md). -/

namespace Sys2Proof.Machine

/-! ## LDI (R120) -/

/-- LDI reads no register, so it completes at every state. -/
theorem exec_ldi (ra : Reg) (imm : Byte) (s : State) :
    exec (.ldi ra imm) s = .next ((s.writeReg ra imm).advance 3) :=
  State.complete_ok s _ Opcode.ldi

/-- LDI is in the base map, so a register byte above 7 is all that its decoding can reject. -/
theorem decode_ldi_illegal (ext : Bool) {b1 : Byte} (imm : Byte) (hb : 7 < b1.toNat) :
    decode ext [0x82#8, b1, imm] = .error (.rejected (.illegalRegister b1)) :=
  have hw : (Instr.ldi .r0 imm).wellFormed ext = true := by cases ext <;> rfl
  decode_first_illegal hw (Nat.le_refl 1) hb (Nat.le_refl 3)

/-- Settles O28: the effect is one register write and an advance, with no condition on the state. -/
theorem ldiRule : Obligations.LdiRule := by
  intro ra imm s
  refine ⟨rfl, ⟨_, exec_ldi ra imm s, ?value, readable_writeReg_advance s ra imm 3, rfl,
    keepsBut_writeReg_advance s ra imm 3⟩, fun ext _ hb => decode_ldi_illegal ext imm hb⟩
  case value => exact Regs.get_set_self s.regs ra imm

/-! ## PRN (R121) -/

theorem exec_prn_of_readable {ra : Reg} {s : State} (h : Readable s ra) :
    exec (.prn ra) s = .next ((s.emit (s.regs.get ra)).advance 2) := by
  rw [exec, execPrn, State.readReg_marked h, Except.ok_bind, Except.pure_eq, State.complete_ok]

theorem exec_prn_of_not_readable {ra : Reg} {s : State} (h : ¬ Readable s ra) :
    exec (.prn ra) s = .next (s.raise (some 0x47#8) (.unwrittenReg ra)) := by
  rw [exec, execPrn, State.readReg_unmarked h, Except.error_bind, State.complete_error]

/-- The host's text is the concatenation of the lines of the output's bytes (10_state.md R36). -/
theorem State.outputText_of_append {s t : State} {v : Byte} (h : t.output = s.output ++ [v]) :
    t.outputText = s.outputText ++ outputLine v := by
  simp [State.outputText, h]

/-- Settles O29: a marked register's byte is appended to the output, whose last line is that byte's. -/
theorem prnRule : Obligations.PrnRule := by
  refine ⟨oneRegisterForm_of_operandBytes (fun _ => rfl) (fun _ => rfl) fun _ => Nat.le_refl 1, fun ra s =>
    ⟨fun ha => ?completes, exec_prn_of_not_readable⟩⟩
  case completes =>
    refine ⟨_, exec_prn_of_readable ha, rfl, rfl, fun _ _ => ⟨rfl, rfl⟩, fun _ _ => rfl, rfl, ⟨rfl, rfl, rfl⟩, ?text⟩
    case text =>
      have hout : ((s.emit (s.regs.get ra)).advance 2).output = s.output ++ [s.regs.get ra] := rfl
      rw [State.outputText_of_append hout, outputLine, decimal, List.append_assoc]

end Sys2Proof.Machine
end

section
/-! PROOFS. The ALU instructions (42_alu.md): one rule for the operations on two registers with a result for Rra, then
CMP, the zero divisor of DIV, and NOT. -/

namespace Sys2Proof.Machine

/-! ## An ALU operation's answer, by what its reads and the ALU answer -/

section
variable {s : State} {sel : Byte} {ra rb : Reg}

theorem State.aluTwo_of_alu_ok {out : AluOut} (ha : Readable s ra) (hb : Readable s rb)
    (h : alu s.cfg.extAlu sel (s.regs.get ra) rb (s.regs.get rb) = .ok out) :
    s.aluTwo sel ra rb = .ok ((s.writeAlu ra out).advance 3) := by
  simp only [State.aluTwo, State.readTwo_marked ha hb, Except.ok_bind, h, Except.pure_eq]

theorem State.aluTwo_of_alu_error {e : Trap} (ha : Readable s ra) (hb : Readable s rb)
    (h : alu s.cfg.extAlu sel (s.regs.get ra) rb (s.regs.get rb) = .error e) : s.aluTwo sel ra rb = .error e := by
  simp only [State.aluTwo, State.readTwo_marked ha hb, Except.ok_bind, h, Except.error_bind]

theorem State.aluTwo_first_unwritten (ha : ¬ Readable s ra) : s.aluTwo sel ra rb = .error (.unwrittenReg ra) := by
  rw [State.aluTwo, State.readTwo, State.readReg_unmarked ha, Except.error_bind, Except.error_bind]

theorem State.aluTwo_second_unwritten (ha : Readable s ra) (hb : ¬ Readable s rb) :
    s.aluTwo sel ra rb = .error (.unwrittenReg rb) := by
  rw [State.aluTwo, State.readTwo, State.readReg_marked ha, Except.ok_bind, State.readReg_unmarked hb,
    Except.error_bind, Except.error_bind]

theorem State.aluOne_of_alu_ok {out : AluOut} (ha : Readable s ra)
    (h : alu s.cfg.extAlu sel (s.regs.get ra) ra (s.regs.get ra) = .ok out) :
    s.aluOne sel ra = .ok ((s.writeAlu ra out).advance 2) := by
  rw [State.aluOne, State.readReg_marked ha, Except.ok_bind, h, Except.ok_bind, Except.pure_eq]

theorem State.aluOne_unwritten (ha : ¬ Readable s ra) : s.aluOne sel ra = .error (.unwrittenReg ra) := by
  rw [State.aluOne, State.readReg_unmarked ha, Except.error_bind]

end

/-! ## An ALU instruction on two registers -/

theorem decode_second_illegal {ext : Bool} {i : Instr} {b1 b2 : Byte} {more : List Byte} (hw : i.wellFormed ext = true)
    (hr : registerOperands i = 2) (hb1 : b1.toNat ≤ 7) (hb2 : 7 < b2.toNat) :
    decode ext (i.opcode :: b1 :: b2 :: more) = .error (.rejected (.illegalRegister b2)) :=
  decode_cons_error (decodeOperands_second_illegal hw hr rfl rfl hb1 hb2)

/-- `mk` makes the instruction with opcode `op` and two register operands that sends the ALU the select `op` (R130).
Each field holds by unfolding, so `{}` proves it of an instruction of the model. -/
structure IsAluTwo (op : Byte) (mk : Reg → Reg → Instr) : Prop where
  opcode_eq : ∀ ra rb, (mk ra rb).opcode = op := by intros; rfl
  operandBytes_eq : ∀ ra rb, (mk ra rb).operandBytes = [ra.toByte, rb.toByte] := by intros; rfl
  registers_eq : ∀ ra rb, registerOperands (mk ra rb) = 2 := by intros; rfl
  exec_eq : ∀ ra rb s, exec (mk ra rb) s = s.complete op (s.aluTwo op ra rb) := by intros; rfl

namespace IsAluTwo

variable {op : Byte} {mk : Reg → Reg → Instr} (hi : IsAluTwo op mk) {ra rb : Reg} {s : State}
include hi

theorem encode_eq : encode (mk ra rb) = [op, ra.toByte, rb.toByte] := by
  rw [encode, hi.opcode_eq, hi.operandBytes_eq]

theorem exec_of_alu_ok {out : AluOut} (ha : Readable s ra) (hb : Readable s rb)
    (h : alu s.cfg.extAlu op (s.regs.get ra) rb (s.regs.get rb) = .ok out) :
    exec (mk ra rb) s = .next ((s.writeAlu ra out).advance 3) := by
  rw [hi.exec_eq, State.aluTwo_of_alu_ok ha hb h, State.complete_ok]

theorem exec_of_alu_error {e : Trap} (ha : Readable s ra) (hb : Readable s rb)
    (h : alu s.cfg.extAlu op (s.regs.get ra) rb (s.regs.get rb) = .error e) :
    exec (mk ra rb) s = .next (s.raise (some op) e) := by
  rw [hi.exec_eq, State.aluTwo_of_alu_error ha hb h, State.complete_error]

theorem exec_first_unwritten (ha : ¬ Readable s ra) :
    exec (mk ra rb) s = .next (s.raise (some op) (.unwrittenReg ra)) := by
  rw [hi.exec_eq, State.aluTwo_first_unwritten ha, State.complete_error]

theorem exec_second_unwritten (ha : Readable s ra) (hb : ¬ Readable s rb) :
    exec (mk ra rb) s = .next (s.raise (some op) (.unwrittenReg rb)) := by
  rw [hi.exec_eq, State.aluTwo_second_unwritten ha hb, State.complete_error]

/-- Operand a's check comes before operand b's (30_encoding.md R93). -/
theorem decode_illegal {ext : Bool} (hw : (mk ra rb).wellFormed ext = true) (b1 b2 : Byte) :
    (7 < b1.toNat → decode ext [op, b1, b2] = .error (.rejected (.illegalRegister b1))) ∧
    (b1.toNat ≤ 7 → 7 < b2.toNat → decode ext [op, b1, b2] = .error (.rejected (.illegalRegister b2))) := by
  have hr : registerOperands (mk ra rb) = 2 := hi.registers_eq ra rb
  rw [← hi.opcode_eq ra rb]
  refine ⟨fun h1 => decode_first_illegal hw (by omega) h1 ?length, fun h1 h2 => decode_second_illegal hw hr h1 h2⟩
  case length =>
    rw [hi.encode_eq]
    exact Nat.le_refl 3

/-- When the ALU answers the result `g a b` under the condition `on`, the rule of `g` as a function of numbers holds. -/
theorem twoRegisterRule {on : State → Nat → Nat → Prop} {f : Nat → Nat → Nat} {g : Byte → Byte → Byte}
    (halu : ∀ s a rb b, on s a.toNat b.toNat → alu s.cfg.extAlu op a rb b = .ok (.result (g a b)))
    (hval : ∀ a b, (g a b).toNat = f a.toNat b.toNat) : TwoRegisterRule op mk on f := by
  intro ra rb s
  refine ⟨hi.encode_eq, fun ha hb hon => ?completes, hi.exec_first_unwritten, hi.exec_second_unwritten,
    fun _ hw => hi.decode_illegal hw⟩
  case completes =>
    refine ⟨_, hi.exec_of_alu_ok ha hb (halu s _ rb _ hon), ?value, readable_writeReg_advance s ra _ 3, rfl,
      keepsBut_writeReg_advance s ra _ 3⟩
    case value =>
      calc ((s.regs.set ra (g (s.regs.get ra) (s.regs.get rb))).get ra).toNat
          _ = (g (s.regs.get ra) (s.regs.get rb)).toNat := by rw [Regs.get_set_self]
          _ = f (val s ra) (val s rb) := hval _ _

/-- The rule of an EXT_ALU operation: `EXT_ALU = true` is its whole condition. -/
theorem extRule {f : Nat → Nat → Nat} {g : Byte → Byte → Byte}
    (halu : ∀ a b rb, alu true op a rb b = .ok (.result (g a b)))
    (hval : ∀ a b, (g a b).toNat = f a.toNat b.toNat) :
    TwoRegisterRule op mk (fun s _ _ => s.cfg.extAlu = true) f := by
  refine hi.twoRegisterRule (fun s a rb b hext => ?_) hval
  rw [hext]
  exact halu a b rb

end IsAluTwo

/-! ## ADD, SUB and MUL (R132 to R134) -/

/-- Settles O30: addition of bytes is addition modulo 256. -/
theorem addRule : Obligations.AddRule :=
  IsAluTwo.twoRegisterRule {} (fun s a rb b _ => alu_add a b rb s.cfg.extAlu) BitVec.toNat_add

/-- Subtraction of bytes is the difference of integers modulo 256. -/
theorem Byte.toNat_sub_eq_int (a b : Byte) : (a - b).toNat = (((a.toNat : Int) - (b.toNat : Int)) % 256).toNat := by
  have hb : b.toNat < 256 := b.isLt
  rw [BitVec.toNat_sub]
  omega

/-- Settles O31: subtraction of bytes is subtraction modulo 256, ra minus rb. -/
theorem subRule : Obligations.SubRule :=
  IsAluTwo.twoRegisterRule {} (fun s a rb b _ => alu_sub a b rb s.cfg.extAlu) Byte.toNat_sub_eq_int

/-- Settles O32: multiplication of bytes is multiplication modulo 256. -/
theorem mulRule : Obligations.MulRule :=
  IsAluTwo.twoRegisterRule {} (fun s a rb b _ => alu_mul a b rb s.cfg.extAlu) BitVec.toNat_mul

/-! ## CMP (R135) -/

section
variable {a b : Byte}

theorem cmpFlags_of_eq (h : a.toNat = b.toNat) : cmpFlags a b = 0x01#8 := by
  simp [cmpFlags, h]

theorem cmpFlags_of_gt (h : b.toNat < a.toNat) : cmpFlags a b = 0x02#8 := by
  simp [cmpFlags, h.ne', h]

theorem cmpFlags_of_lt (h : a.toNat < b.toNat) : cmpFlags a b = 0x04#8 := by
  simp [cmpFlags, h.ne, h.not_gt]

end

/-- Settles O33: the ALU answers the flags of the comparison, and writing FL leaves every register and byte. -/
theorem cmpRule : Obligations.CmpRule := by
  have hi : IsAluTwo 0xA7#8 .cmp := {}
  intro ra rb s
  refine ⟨hi.encode_eq, fun ha hb => ?completes, hi.exec_first_unwritten, hi.exec_second_unwritten,
    fun ext => hi.decode_illegal (ra := ra) (rb := rb) (ext := ext) rfl⟩
  case completes =>
    exact ⟨_, hi.exec_of_alu_ok ha hb (alu_cmp _ _ rb _), cmpFlags_of_eq, cmpFlags_of_gt, cmpFlags_of_lt, rfl,
      fun _ _ => ⟨rfl, rfl⟩, fun _ _ => rfl, rfl, ⟨rfl, rfl, rfl⟩⟩

/-! ## DIV (R140) -/

/-- Taking a fault changes only the run state and the record (60_exceptions.md R203). -/
theorem onlyFaults_raise (s : State) (op : Option Byte) (t : Trap) : OnlyFaults s t.cause (.next (s.raise op t)) :=
  ⟨_, rfl, rfl, rfl, rfl, rfl, rfl, rfl, rfl, rfl, rfl, rfl⟩

theorem alu_div_of_ne_zero {a b : Byte} (rb : Reg) (h : b.toNat ≠ 0) :
    alu true Opcode.div a rb b = .ok (.result (a / b)) := by
  rcases aluDiv_cases a b rb with ⟨rfl, -⟩ | ⟨-, e⟩
  · exact absurd rfl h
  · exact e

theorem alu_div_of_eq_zero {a b : Byte} (rb : Reg) (h : b.toNat = 0) :
    alu true Opcode.div a rb b = .error (.divideByZero rb) := by
  rcases aluDiv_cases a b rb with ⟨-, e⟩ | ⟨hb, -⟩
  · exact e
  · exact absurd (BitVec.eq_of_toNat_eq h) hb

/-- Settles O34: the divisor alone decides between the quotient and the fault, which the ALU answers before the
write-back. -/
theorem divRule : Obligations.DivRule := by
  have hi : IsAluTwo 0xA3#8 .div := {}
  refine ⟨hi.twoRegisterRule (fun s a rb b hon => ?quotient) fun _ _ => BitVec.toNat_udiv,
    fun ra rb s hext ha hb h0 => ?zero⟩
  case quotient =>
    obtain ⟨hext, hb⟩ := hon
    rw [hext]
    exact alu_div_of_ne_zero rb hb
  case zero =>
    rw [hi.exec_of_alu_error ha hb (e := .divideByZero rb) (by rw [hext]; exact alu_div_of_eq_zero rb h0)]
    exact onlyFaults_raise s _ (.divideByZero rb)

/-! ## AND, OR and XOR (R141 to R143) -/

/-- Settles O35: AND of bytes is AND of their numbers. -/
theorem andRule : Obligations.AndRule :=
  IsAluTwo.extRule {} alu_and BitVec.toNat_and

/-- Settles O36: OR of bytes is OR of their numbers. -/
theorem orRule : Obligations.OrRule :=
  IsAluTwo.extRule {} alu_or BitVec.toNat_or

/-- Settles O37: exclusive OR of bytes is exclusive OR of their numbers. -/
theorem xorRule : Obligations.XorRule :=
  IsAluTwo.extRule {} alu_xor BitVec.toNat_xor

/-! ## NOT (R144) -/

theorem exec_not_of_readable {ra : Reg} {s : State} (hext : s.cfg.extAlu = true) (ha : Readable s ra) :
    exec (.not ra) s = .next ((s.writeReg ra (~~~ s.regs.get ra)).advance 2) := by
  have halu : alu s.cfg.extAlu Opcode.not (s.regs.get ra) ra (s.regs.get ra) = .ok (.result (~~~ s.regs.get ra)) := by
    rw [hext, alu_not]
  rw [exec, execNot, State.aluOne_of_alu_ok ha halu, State.complete_ok, State.writeAlu_result]

theorem exec_not_of_not_readable {ra : Reg} {s : State} (ha : ¬ Readable s ra) :
    exec (.not ra) s = .next (s.raise (some 0x69#8) (.unwrittenReg ra)) := by
  rw [exec, execNot, State.aluOne_unwritten ha, State.complete_error]

/-- Settles O38: the complement of a byte is its distance from 255. -/
theorem notRule : Obligations.NotRule := by
  refine ⟨oneRegisterForm_of_operandBytes (fun _ => rfl) (fun _ => rfl) fun _ => Nat.le_refl 1, fun ra s =>
    ⟨fun hext ha => ?completes, exec_not_of_not_readable⟩⟩
  case completes =>
    refine ⟨_, exec_not_of_readable hext ha, ?value, readable_writeReg_advance s ra _ 2, rfl,
      keepsBut_writeReg_advance s ra _ 2⟩
    case value =>
      calc ((s.regs.set ra (~~~ s.regs.get ra)).get ra).toNat
          _ = (~~~ s.regs.get ra).toNat := by rw [Regs.get_set_self]
          _ = 255 - val s ra := BitVec.toNat_not

/-! ## SHL and SHR (R145, R146) -/

/-- Settles O39: a left shift is a product with a power of two, of which the low 8 bits stay. -/
theorem shlRule : Obligations.ShlRule :=
  IsAluTwo.extRule {} alu_shl fun a b => by rw [BitVec.toNat_shiftLeft, Nat.shiftLeft_eq]

/-- Settles O40: a logical right shift is a division by a power of two. -/
theorem shrRule : Obligations.ShrRule :=
  IsAluTwo.extRule {} alu_shr fun a b => by rw [BitVec.toNat_ushiftRight, Nat.shiftRight_eq_div_pow]

end Sys2Proof.Machine
end

section
/-! PROOFS. The stack instructions PUSH and POP (43_stack.md). -/

namespace Sys2Proof.Machine

/-! ## The stack pointer (R57) -/

section
variable {s : State}

theorem State.decSp_of_readable (h : Readable s .sp) : s.decSp = .ok (s.writeReg .sp (s.regs.get .sp - 1)) := by
  rw [State.decSp, State.readReg_marked h, Except.ok_bind, Except.pure_eq]

theorem State.incSp_of_readable (h : Readable s .sp) : s.incSp = .ok (s.writeReg .sp (s.regs.get .sp + 1)) := by
  rw [State.incSp, State.readReg_marked h, Except.ok_bind, Except.pure_eq]

theorem State.stackTop_of_read_some {v : Byte} (h : Readable s .sp) (hm : s.mem.read (val s .sp) = some v) :
    s.stackTop = .ok v := by
  rw [State.stackTop, State.readReg_marked h, Except.ok_bind, memRead_byte hm]

theorem State.stackTop_of_read_none (h : Readable s .sp) (hm : s.mem.read (val s .sp) = none) :
    s.stackTop = .error (.unwrittenByte (val s .sp)) := by
  rw [State.stackTop, State.readReg_marked h, Except.ok_bind, memRead_unwritten hm]

/-- Right after SP is written, the store at SP cannot fail: SP has its mark and holds an address of a byte. -/
theorem State.setStackTop_writeReg_sp (s : State) (sp v : Byte) :
    (s.writeReg .sp sp).setStackTop v = .ok ((s.writeReg .sp sp).setMem (s.mem.write sp.toNat v)) := by
  rw [State.setStackTop, State.readReg_marked (Regs.get_set_self s.written .sp true), Except.ok_bind,
    State.writeReg_regs, Regs.get_set_self, memWrite_byte, Except.ok_bind, Except.pure_eq, State.writeReg_mem]

theorem readable_writeReg {r : Reg} (h : Readable s r) (q : Reg) (v : Byte) : Readable (s.writeReg q v) r :=
  Regs.set_true_mono s.written q r h

theorem not_readable_writeReg {q r : Reg} (h : ¬ Readable s r) (hne : r ≠ q) (v : Byte) :
    ¬ Readable (s.writeReg q v) r := by
  rwa [Readable, State.writeReg_written, Regs.get_set_ne s.written true hne]

end

/-- The address of the next push is that of the decremented SP. -/
theorem toNat_sp_sub_one (s : State) : (s.regs.get .sp - 1).toNat = pushAddr s := by
  rw [BitVec.toNat_sub, pushAddr, Nat.add_comm]
  rfl

theorem KeepsRegs.trans {rs qs : List Reg} {s t u : State} (hst : KeepsRegs rs s t) (htu : KeepsRegs qs t u) :
    KeepsRegs (rs ++ qs) s u := by
  intro r hr
  rw [List.mem_append, not_or] at hr
  obtain ⟨hv, hw⟩ := hst r hr.1
  obtain ⟨hv', hw'⟩ := htu r hr.2
  exact ⟨hv'.trans hv, hw'.trans hw⟩

/-! ## PUSH (R170) -/

/-- The state with `v` pushed: SP decremented, and the byte at the new SP (20_memory.md R57). -/
def State.pushByte (s : State) (v : Byte) : State :=
  (s.writeReg .sp (s.regs.get .sp - 1)).setMem (s.mem.write (s.regs.get .sp - 1).toNat v)

/-- The byte that PUSH stores: the register, read after the SP update. -/
def State.pushOperand (s : State) (ra : Reg) : Byte := (s.writeReg .sp (s.regs.get .sp - 1)).regs.get ra

/-- The state after PUSH. -/
def State.afterPush (s : State) (ra : Reg) : State := (s.pushByte (s.pushOperand ra)).advance 2

section
variable (s : State)

@[simp] theorem State.pushByte_regs (v : Byte) :
    (s.pushByte v).regs = s.regs.set .sp (s.regs.get .sp - 1) := rfl

@[simp] theorem State.afterPush_regs (ra : Reg) :
    (s.afterPush ra).regs = s.regs.set .sp (s.regs.get .sp - 1) := rfl

theorem State.pushByte_mem (v : Byte) : (s.pushByte v).mem = s.mem.write (pushAddr s) v := by
  rw [← toNat_sp_sub_one]
  rfl

/-- A push changes SP and the byte at the new SP, and nothing else. -/
theorem keepsBut_pushByte (v : Byte) : KeepsBut [.sp] [pushAddr s] s (s.pushByte v) := by
  refine ⟨keepsRegs_writeReg s .sp _, fun a ha => ?mem, rfl, rfl, rfl, rfl, rfl⟩
  case mem => rw [State.pushByte_mem, Memory.read_write_ne v s.mem (List.ne_of_not_mem_cons ha)]

theorem val_sp_pushByte (v : Byte) : val (s.pushByte v) .sp = pushAddr s := by
  rw [val, State.pushByte_regs, Regs.get_set_self, toNat_sp_sub_one]

theorem readable_sp_afterPush (ra : Reg) : Readable (s.afterPush ra) .sp := Regs.get_set_self s.written .sp true

theorem State.read_pushByte_self (v : Byte) : (s.pushByte v).mem.read (pushAddr s) = some v := by
  rw [State.pushByte_mem, Memory.read_write_self]

theorem State.pushOperand_eq (ra : Reg) :
    s.pushOperand ra = if ra = .sp then BitVec.ofNat 8 (pushAddr s) else s.regs.get ra := by
  rw [← toNat_sp_sub_one, BitVec.ofNat_toNat, BitVec.setWidth_eq]
  exact Regs.get_set s.regs .sp ra _

variable {s} {ra : Reg}

theorem exec_push_of_readable (hsp : Readable s .sp) (ha : Readable s ra) :
    exec (.push ra) s = .next (s.afterPush ra) := by
  rw [exec, execPush, State.decSp_of_readable hsp, Except.ok_bind,
    State.readReg_marked (readable_writeReg ha .sp (s.regs.get .sp - 1)), Except.ok_bind,
    State.setStackTop_writeReg_sp, Except.ok_bind, Except.pure_eq, State.complete_ok]
  rfl

theorem exec_push_of_not_readable (hsp : Readable s .sp) (ha : ¬ Readable s ra) :
    exec (.push ra) s = .next (s.raise (some 0x45#8) (.unwrittenReg ra)) := by
  have hne : ra ≠ .sp := by rintro rfl; exact ha hsp
  rw [exec, execPush, State.decSp_of_readable hsp, Except.ok_bind,
    State.readReg_unmarked (not_readable_writeReg ha hne (s.regs.get .sp - 1)), Except.error_bind, State.complete_error]

end

/-- Settles O41: once SP has its mark, only the register's own read can fail; the rest is one push and an
advance. -/
theorem pushRule : Obligations.PushRule := by
  refine ⟨oneRegisterForm_of_operandBytes (fun _ => rfl) (fun _ => rfl) fun _ => Nat.le_refl 1, fun ra s hsp =>
    ⟨fun ha => ?completes, exec_push_of_not_readable hsp⟩⟩
  case completes =>
    refine ⟨_, exec_push_of_readable hsp ha, val_sp_pushByte s (s.pushOperand ra), ?stored, rfl,
      keepsBut_pushByte s _⟩
    case stored =>
      rw [← State.pushOperand_eq]
      exact s.read_pushByte_self _

/-! ## POP (R171) -/

/-- The state with the byte `v` popped into `ra`: the register written, then SP incremented from its value as it
stands. -/
def State.popInto (s : State) (ra : Reg) (v : Byte) : State :=
  (s.writeReg ra v).writeReg .sp ((s.writeReg ra v).regs.get .sp + 1)

/-- The state after a POP of the byte `v`. -/
def State.afterPop (s : State) (ra : Reg) (v : Byte) : State := (s.popInto ra v).advance 2

section
variable (s : State) (ra : Reg) (v : Byte)

@[simp] theorem State.popInto_regs :
    (s.popInto ra v).regs = (s.regs.set ra v).set .sp ((s.regs.set ra v).get .sp + 1) := rfl

@[simp] theorem State.afterPop_regs :
    (s.afterPop ra v).regs = (s.regs.set ra v).set .sp ((s.regs.set ra v).get .sp + 1) := rfl

/-- A pop changes its destination and SP, and nothing else. -/
theorem keepsBut_popInto : KeepsBut [ra, .sp] [] s (s.popInto ra v) :=
  ⟨(keepsRegs_writeReg s ra v).trans (keepsRegs_writeReg (s.writeReg ra v) .sp _), fun _ _ => rfl, rfl, rfl, rfl,
    rfl, rfl⟩

theorem readable_popInto : Readable (s.popInto ra v) ra :=
  readable_writeReg (Regs.get_set_self s.written ra true) .sp _

/-- SP after a pop: one more than what it holds once the destination is written. -/
theorem val_sp_popInto : val (s.popInto ra v) .sp = ((if .sp = ra then v else s.regs.get .sp).toNat + 1) % 256 := by
  rw [val, State.popInto_regs, Regs.get_set_self, Regs.get_set, BitVec.toNat_add]
  rfl

variable {s ra v}

theorem State.popInto_get_of_ne_sp (h : ra ≠ .sp) : (s.popInto ra v).regs.get ra = v := by
  rw [State.popInto_regs, Regs.get_set_ne _ _ h, Regs.get_set_self]

theorem exec_pop_of_read_some (hsp : Readable s .sp) (hm : s.mem.read (val s .sp) = some v) :
    exec (.pop ra) s = .next (s.afterPop ra v) := by
  rw [exec, execPop, State.stackTop_of_read_some hsp hm, Except.ok_bind,
    State.incSp_of_readable (readable_writeReg hsp ra v), Except.ok_bind, Except.pure_eq, State.complete_ok]
  rfl

theorem exec_pop_of_read_none (hsp : Readable s .sp) (hm : s.mem.read (val s .sp) = none) :
    exec (.pop ra) s = .next (s.raise (some 0x46#8) (.unwrittenByte (val s .sp))) := by
  rw [exec, execPop, State.stackTop_of_read_none hsp hm, Except.error_bind, State.complete_error]

end

/-- Settles O42: once SP has its mark, only the read of the byte at SP can fail; the rest is one pop and an
advance. -/
theorem popRule : Obligations.PopRule := by
  refine ⟨oneRegisterForm_of_operandBytes (fun _ => rfl) (fun _ => rfl) fun _ => Nat.le_refl 1, fun ra s hsp =>
    ⟨fun v hm => ?completes, exec_pop_of_read_none hsp⟩⟩
  case completes =>
    have hval := val_sp_popInto s ra v
    refine ⟨_, exec_pop_of_read_some hsp hm, fun hne => ⟨State.popInto_get_of_ne_sp hne, ?other⟩, fun hra => ?sp,
      readable_popInto s ra v, rfl, keepsBut_popInto s ra v⟩
    case other => rwa [if_neg hne.symm] at hval
    case sp => rwa [if_pos hra.symm] at hval

/-! ## PUSH, then POP (R172) -/

section
variable {s t : State} {before after : List Byte}

theorem bytesAtPc_append_left (h : BytesAtPc s (before ++ after)) : BytesAtPc s before := by
  intro k hk
  have hb := h k (by rw [List.length_append]; omega)
  rwa [List.getElem_append_left hk] at hb

/-- With PC past the first of two byte sequences, and the bytes of the second one kept, the second one is at the PC. -/
theorem bytesAtPc_append_right (h : BytesAtPc s (before ++ after)) (hpc : t.pc.toNat = s.pc.toNat + before.length)
    (hmem : ∀ k < after.length, t.mem.read (t.pc.toNat + k) = s.mem.read (t.pc.toNat + k)) : BytesAtPc t after := by
  intro k hk
  have hb := h (before.length + k) (by rw [List.length_append]; omega)
  rw [List.getElem_append_right (by omega)] at hb
  rw [hmem k hk, hpc, Nat.add_assoc]
  simpa using hb

end

section
variable {s : State} {r : Reg} {v : Byte}

theorem step_push (hrun : s.runState = .running) (hb : BytesAtPc s (encode (.push r))) (hsp : Readable s .sp)
    (hr : Readable s r) : step s = .next (s.afterPush r) :=
  (step_of_bytesAtPc hrun rfl hb).trans (exec_push_of_readable hsp hr)

theorem step_pop (hrun : s.runState = .running) (hb : BytesAtPc s (encode (.pop r))) (hsp : Readable s .sp)
    (hm : s.mem.read (val s .sp) = some v) : step s = .next (s.afterPop r v) :=
  (step_of_bytesAtPc hrun rfl hb).trans (exec_pop_of_read_some hsp hm)

theorem State.afterPush_pc_toNat (h : s.pc.toNat ≤ 255) : (s.afterPush r).pc.toNat = s.pc.toNat + 2 :=
  State.advance_pc_toNat (s := s.pushByte _) h (by decide)

theorem State.afterPop_pc_toNat (h : s.pc.toNat ≤ 255) : (s.afterPop r v).pc.toNat = s.pc.toNat + 2 :=
  State.advance_pc_toNat (s := s.popInto r v) h (by decide)

/-- A push that does not fall on the two bytes of the POP leaves them at the PC. -/
theorem bytesAtPc_pop_afterPush (hb : BytesAtPc s (encode (.push r) ++ encode (.pop r)))
    (hpc : (s.afterPush r).pc.toNat = s.pc.toNat + 2) (h2 : pushAddr s ≠ s.pc.toNat + 2)
    (h3 : pushAddr s ≠ s.pc.toNat + 3) : BytesAtPc (s.afterPush r) (encode (.pop r)) := by
  obtain ⟨-, hkeep, -⟩ := keepsBut_pushByte s (s.pushOperand r)
  refine bytesAtPc_append_right hb hpc fun k hk => hkeep _ ?_
  have hk2 : k < 2 := hk
  rw [List.mem_singleton, hpc]
  omega

theorem Regs.set_set_self {α : Type} (f : Regs α) (r : Reg) (v w : α) : (f.set r v).set r w = f.set r w := by
  cases r <;> rfl

/-- PUSH stored what its register holds after the push, so popping it back moves only SP. -/
theorem State.regs_afterPop_afterPush (s : State) (r : Reg) :
    ((s.afterPush r).afterPop r (s.pushOperand r)).regs = s.regs := by
  have hsame : (s.afterPush r).regs.set r (s.pushOperand r) = (s.afterPush r).regs := Regs.set_get_self _ r
  rw [State.afterPop_regs, hsame, State.afterPush_regs, Regs.get_set_self, BitVec.sub_add_cancel, Regs.set_set_self,
    Regs.set_get_self]

end

/-- Settles O48: the push keeps the POP's two bytes, the POP reads the pushed byte, and popping it restores the
registers. -/
theorem pushThenPopIsTheIdentity : Obligations.PushThenPopIsTheIdentity := by
  intro r s hrun hsp hr hbytes hne2 hne3
  have hend : s.pc.toNat + 3 < 256 := (hbytes 3 (Nat.lt_succ_self 3)).1
  have hpc : (s.afterPush r).pc.toNat = s.pc.toNat + 2 := State.afterPush_pc_toNat (by omega)
  have hstored : (s.afterPush r).mem.read (pushAddr s) = some (s.pushOperand r) := s.read_pushByte_self _
  have hsp' : val (s.afterPush r) .sp = pushAddr s := val_sp_pushByte s (s.pushOperand r)
  refine ⟨_, _, step_push hrun (bytesAtPc_append_left hbytes) hsp hr,
    step_pop hrun (bytesAtPc_pop_afterPush hbytes hpc hne2 hne3) (readable_sp_afterPush s r)
      (by rwa [hsp']), fun q => ?regs, ?stored, ?pc⟩
  case regs => rw [State.regs_afterPop_afterPush]
  case stored => rwa [← State.pushOperand_eq]
  case pc =>
    rw [State.afterPop_pc_toNat (by omega)]
    omega

end Sys2Proof.Machine
end

section
/-! PROOFS. The control transfers CALL, RET, JMP, JEQ and JNE (44_control.md). -/

namespace Sys2Proof.Machine

/-! ## A jump to a register, and an instruction that passes on -/

section
variable {s : State} {ra : Reg}

theorem State.jumpTo_of_readable (h : Readable s ra) : s.jumpTo ra = .ok (s.setPc (s.regs.get ra).toPc) := by
  rw [State.jumpTo, State.readReg_marked h, Except.ok_bind, Except.pure_eq]

theorem State.jumpTo_of_not_readable (h : ¬ Readable s ra) : s.jumpTo ra = .error (.unwrittenReg ra) := by
  rw [State.jumpTo, State.readReg_unmarked h, Except.error_bind]

theorem keepsBut_setPc (s : State) (p : Pc) : KeepsBut [] [] s (s.setPc p) :=
  ⟨fun _ _ => ⟨rfl, rfl⟩, fun _ _ => rfl, rfl, rfl, rfl, rfl, rfl⟩

/-- An instruction that is a jump to a written register goes there and does nothing else. -/
theorem complete_jumpTo_of_readable (op : Byte) (h : Readable s ra) :
    ∃ t, s.complete op (s.jumpTo ra) = .next t ∧ t.pc.toNat = val s ra ∧ KeepsBut [] [] s t := by
  rw [State.jumpTo_of_readable h]
  exact ⟨_, State.complete_ok s _ op, Byte.toPc_toNat _, keepsBut_setPc s _⟩

theorem complete_jumpTo_of_not_readable (op : Byte) (h : ¬ Readable s ra) :
    s.complete op (s.jumpTo ra) = .next (s.raise (some op) (.unwrittenReg ra)) := by
  rw [State.jumpTo_of_not_readable h, State.complete_error]

end

/-! ## JMP (R183) -/

/-- Settles O45: JMP is the jump and nothing more. -/
theorem jmpRule : Obligations.JmpRule :=
  ⟨oneRegisterForm_of_operandBytes (fun _ => rfl) (fun _ => rfl) fun _ => Nat.le_refl 1, fun _ _ =>
    ⟨complete_jumpTo_of_readable Opcode.jmp, complete_jumpTo_of_not_readable Opcode.jmp⟩⟩

/-! ## JEQ and JNE (R184, R185)

The bit E decides which of two effects there is, and only the jump reads the register. -/

section
variable {s : State} (ra : Reg)

theorem exec_jeq_of_E_set (hE : s.fl.getLsbD 0 = true) :
    exec (.jeq ra) s = s.complete Opcode.jeq (s.jumpTo ra) := by
  rw [exec, execJeq, flagE, if_pos hE]

theorem exec_jeq_of_E_clear (hE : s.fl.getLsbD 0 = false) : exec (.jeq ra) s = .next (s.advance 2) := by
  rw [exec, execJeq, flagE, hE, if_neg Bool.false_ne_true, State.complete_ok]

theorem exec_jne_of_E_clear (hE : s.fl.getLsbD 0 = false) :
    exec (.jne ra) s = s.complete Opcode.jne (s.jumpTo ra) := by
  rw [exec, execJne, flagE, hE, if_neg Bool.false_ne_true]

theorem exec_jne_of_E_set (hE : s.fl.getLsbD 0 = true) : exec (.jne ra) s = .next (s.advance 2) := by
  rw [exec, execJne, flagE, if_pos hE, State.complete_ok]

end

/-- Settles O46: with E set JEQ is the jump, with E clear it is the advance. -/
theorem jeqRule : Obligations.JeqRule :=
  ⟨oneRegisterForm_of_operandBytes (fun _ => rfl) (fun _ => rfl) fun _ => Nat.le_refl 1, fun ra s =>
    ⟨fun hE ha => exec_jeq_of_E_set ra hE ▸ complete_jumpTo_of_readable Opcode.jeq ha,
      fun hE => ⟨_, exec_jeq_of_E_clear ra hE, rfl, keepsBut_setPc s _⟩,
      fun hE ha => exec_jeq_of_E_set ra hE ▸ complete_jumpTo_of_not_readable Opcode.jeq ha⟩⟩

/-- Settles O47: with E clear JNE is the jump, with E set it is the advance. -/
theorem jneRule : Obligations.JneRule :=
  ⟨oneRegisterForm_of_operandBytes (fun _ => rfl) (fun _ => rfl) fun _ => Nat.le_refl 1, fun ra s =>
    ⟨fun hE ha => exec_jne_of_E_clear ra hE ▸ complete_jumpTo_of_readable Opcode.jne ha,
      fun hE => ⟨_, exec_jne_of_E_set ra hE, rfl, keepsBut_setPc s _⟩,
      fun hE ha => exec_jne_of_E_clear ra hE ▸ complete_jumpTo_of_not_readable Opcode.jne ha⟩⟩

/-! ## CALL (R180, R181) -/

/-- The byte that CALL pushes: the address of the instruction after it. -/
def State.callReturn (s : State) : Byte := BitVec.ofNat 8 (s.pc.toNat + 2)

/-- The state after CALL: the return address pushed, and PC the register, read after the SP update. -/
def State.afterCall (s : State) (ra : Reg) : State := (s.pushByte s.callReturn).setPc (s.pushOperand ra).toPc

section
variable {s : State} {ra : Reg}

theorem readable_pushByte (h : Readable s ra) (v : Byte) : Readable (s.pushByte v) ra :=
  readable_writeReg h .sp (s.regs.get .sp - 1)

theorem State.returnByte_of_le (h : s.pc.toNat + 2 ≤ 255) : s.returnByte = .ok s.callReturn := by
  rw [State.returnByte, if_neg (by omega), State.callReturn]

theorem State.returnByte_of_gt (h : 255 < s.pc.toNat + 2) : s.returnByte = .error (.boundsFault (s.pc.toNat + 2)) :=
  if_pos h

theorem exec_call_of_readable (hsp : Readable s .sp) (ha : Readable s ra) (hpc : s.pc.toNat + 2 ≤ 255) :
    exec (.call ra) s = .next (s.afterCall ra) := by
  rw [exec, execCall, State.readReg_marked ha, Except.ok_bind, State.returnByte_of_le hpc, Except.ok_bind,
    State.decSp_of_readable hsp, Except.ok_bind, State.setStackTop_writeReg_sp, Except.ok_bind]
  exact congrArg (s.complete Opcode.call) (State.jumpTo_of_readable (readable_pushByte ha s.callReturn))

theorem exec_call_of_return_above (ha : Readable s ra) (hpc : 255 < s.pc.toNat + 2) :
    exec (.call ra) s = .next (s.raise (some 0x50#8) (.boundsFault (s.pc.toNat + 2))) := by
  rw [exec, execCall, State.readReg_marked ha, Except.ok_bind, State.returnByte_of_gt hpc, Except.error_bind,
    State.complete_error]

theorem exec_call_of_not_readable (ha : ¬ Readable s ra) :
    exec (.call ra) s = .next (s.raise (some 0x50#8) (.unwrittenReg ra)) := by
  rw [exec, execCall, State.readReg_unmarked ha, Except.error_bind, State.complete_error]

theorem State.pushOperand_toNat (s : State) (ra : Reg) :
    (s.pushOperand ra).toNat = if ra = .sp then pushAddr s else val s ra := by
  rw [← toNat_sp_sub_one, ← apply_ite BitVec.toNat]
  exact congrArg BitVec.toNat (Regs.get_set s.regs .sp ra _)

@[simp] theorem State.afterCall_regs (s : State) (ra : Reg) :
    (s.afterCall ra).regs = s.regs.set .sp (s.regs.get .sp - 1) := rfl

theorem State.afterCall_pc_toNat (s : State) (ra : Reg) : (s.afterCall ra).pc.toNat = (s.pushOperand ra).toNat :=
  Byte.toPc_toNat _

end

/-- Settles O43: with SP and the register written, the return address alone can fail, before anything is pushed. -/
theorem callRule : Obligations.CallRule := by
  refine ⟨oneRegisterForm_of_operandBytes (fun _ => rfl) (fun _ => rfl) fun _ => Nat.le_refl 1, fun ra s hsp =>
    ⟨fun ha hpc => ?completes, exec_call_of_return_above, exec_call_of_not_readable⟩⟩
  case completes =>
    exact ⟨_, exec_call_of_readable hsp ha hpc, val_sp_pushByte s s.callReturn, s.read_pushByte_self _,
      (s.afterCall_pc_toNat ra).trans (s.pushOperand_toNat ra), keepsBut_pushByte s s.callReturn⟩

/-! ## RET (R182) -/

/-- The state after a RET to the byte `v`: SP incremented, and PC that byte. -/
def State.afterRet (s : State) (v : Byte) : State := (s.writeReg .sp (s.regs.get .sp + 1)).setPc v.toPc

section
variable {s : State}

@[simp] theorem State.afterRet_regs (s : State) (v : Byte) :
    (s.afterRet v).regs = s.regs.set .sp (s.regs.get .sp + 1) := rfl

theorem exec_ret_of_read_some {v : Byte} (hsp : Readable s .sp) (hm : s.mem.read (val s .sp) = some v) :
    exec .ret s = .next (s.afterRet v) := by
  rw [exec, execRet, State.stackTop_of_read_some hsp hm, Except.ok_bind, State.incSp_of_readable hsp, Except.ok_bind,
    Except.pure_eq, State.complete_ok, State.afterRet]

theorem exec_ret_of_read_none (hsp : Readable s .sp) (hm : s.mem.read (val s .sp) = none) :
    exec .ret s = .next (s.raise (some 0x11#8) (.unwrittenByte (val s .sp))) := by
  rw [exec, execRet, State.stackTop_of_read_none hsp hm, Except.error_bind, State.complete_error]

theorem val_sp_afterRet (s : State) (v : Byte) : val (s.afterRet v) .sp = (val s .sp + 1) % 256 := by
  rw [val, State.afterRet_regs, Regs.get_set_self, BitVec.toNat_add]
  rfl

theorem keepsBut_afterRet (s : State) (v : Byte) : KeepsBut [.sp] [] s (s.afterRet v) :=
  ⟨keepsRegs_writeReg s .sp _, fun _ _ => rfl, rfl, rfl, rfl, rfl, rfl⟩

end

/-- Settles O44: once SP has its mark, only the read of the byte at SP can fail. -/
theorem retRule : Obligations.RetRule :=
  ⟨rfl, fun s hsp => ⟨fun v hm => ⟨_, exec_ret_of_read_some hsp hm, Byte.toPc_toNat v, val_sp_afterRet s v,
    keepsBut_afterRet s v⟩, exec_ret_of_read_none hsp⟩⟩

/-! ## CALL, then RET (R186) -/

section
variable {s : State}

theorem step_call {r : Reg} (hrun : s.runState = .running) (hb : BytesAtPc s (encode (.call r))) (hsp : Readable s .sp)
    (hr : Readable s r) (hpc : s.pc.toNat + 2 ≤ 255) : step s = .next (s.afterCall r) :=
  (step_of_bytesAtPc hrun rfl hb).trans (exec_call_of_readable hsp hr hpc)

/-- RET is its opcode byte alone, so that byte at the PC is all of it. -/
theorem bytesAtPc_ret (hpc : s.pc.toNat < 256) (hm : s.mem.read s.pc.toNat = some 0x11#8) :
    BytesAtPc s (encode .ret) := by
  intro k hk
  obtain rfl : k = 0 := Nat.lt_one_iff.1 hk
  exact ⟨hpc, hm⟩

theorem step_ret {v : Byte} (hrun : s.runState = .running) (hb : BytesAtPc s (encode .ret)) (hsp : Readable s .sp)
    (hm : s.mem.read (val s .sp) = some v) : step s = .next (s.afterRet v) :=
  (step_of_bytesAtPc hrun rfl hb).trans (exec_ret_of_read_some hsp hm)

/-- A push moves only SP, and RET moves it back. -/
theorem State.regs_afterRet_afterCall (s : State) (r : Reg) (v : Byte) :
    ((s.afterCall r).afterRet v).regs = s.regs := by
  rw [State.afterRet_regs, State.afterCall_regs, Regs.get_set_self, BitVec.sub_add_cancel, Regs.set_set_self,
    Regs.set_get_self]

theorem State.callReturn_toNat (h : s.pc.toNat + 2 ≤ 255) : s.callReturn.toNat = s.pc.toNat + 2 :=
  Nat.mod_eq_of_lt (Nat.lt_succ_of_le h)

end

/-- Settles O49: the RET pops the byte that the CALL pushed, wherever the target is. -/
theorem callThenRetReturns : Obligations.CallThenRetReturns := by
  intro r s hrun hpc hsp hr hbytes
  have hpc2 : s.pc.toNat + 2 ≤ 255 := by omega
  have hstored : (s.afterCall r).mem.read (pushAddr s) = some s.callReturn := s.read_pushByte_self _
  have hsp' : val (s.afterCall r) .sp = pushAddr s := val_sp_pushByte s s.callReturn
  refine ⟨_, step_call hrun hbytes hsp hr hpc2, hstored, fun hret => ⟨_, step_ret hrun (bytesAtPc_ret ?target hret)
    (readable_pushByte hsp s.callReturn) (by rwa [hsp']), ?pc, fun q => ?regs⟩⟩
  case target =>
    rw [State.afterCall_pc_toNat]
    exact (s.pushOperand r).isLt
  case pc => exact (Byte.toPc_toNat s.callReturn).trans (State.callReturn_toNat hpc2)
  case regs => rw [State.regs_afterRet_afterCall]

end Sys2Proof.Machine
end

section
/-! PROOFS. Faults (60_exceptions.md section 1): a step that ends in Faulted has taken one fault and nothing else. -/

namespace Sys2Proof.Machine

section
variable {s t : State}

/-- The result of the opcode fetch, as the `fault_opcode` that R203 records. -/
theorem State.fetchByte_zero_toOption (s : State) :
    (s.fetchByte 0).toOption = if s.pc.toNat ≤ 255 then s.mem.read s.pc.toNat else none := by
  rcases s.fetchByte_cases 0 with ⟨v, hpc, hm, h⟩ | ⟨hpc, hm, h⟩ | ⟨hpc, h⟩
  · rw [Nat.add_zero] at hpc hm
    rw [h, if_pos hpc, hm]; rfl
  · rw [Nat.add_zero] at hpc hm
    rw [h, if_pos hpc, hm]; rfl
  · rw [Nat.add_zero] at hpc
    rw [h, if_neg (Nat.not_le.2 hpc)]; rfl

/-- An instruction that completes changes the run state only by halting. -/
theorem Completes.runState_eq {i : Instr} (hc : Completes i s t) : t.runState = s.runState ∨ t.runState = .halted := by
  cases i with
  | hlt => subst hc; exact .inr rfl
  | ldi ra imm => subst hc; exact .inl rfl
  | prn ra | jmp ra => obtain ⟨-, rfl⟩ := hc; exact .inl rfl
  | cmp ra rb => obtain ⟨-, -, rfl⟩ := hc; exact .inl rfl
  | add ra rb | sub ra rb | mul ra rb | div ra rb | and ra rb | or ra rb | xor ra rb | shl ra rb | shr ra rb =>
    obtain ⟨-, -, v, rfl⟩ := hc; exact .inl rfl
  | not ra => obtain ⟨-, v, rfl⟩ := hc; exact .inl rfl
  | push ra => obtain ⟨-, v, rfl, -⟩ := hc; exact .inl rfl
  | pop ra => obtain ⟨-, v, -, rfl⟩ := hc; exact .inl rfl
  | ret => obtain ⟨-, v, -, rfl⟩ := hc; exact .inl rfl
  | call ra => obtain ⟨-, -, -, rfl⟩ := hc; exact .inl rfl
  | jeq ra | jne ra => rcases hc with ⟨-, -, rfl⟩ | ⟨-, rfl⟩ <;> exact .inl rfl

/-- An instruction that completes in a Running core does not leave it Faulted. -/
theorem Completes.not_faulted {i : Instr} (hc : Completes i s t) (hs : s.runState = .running) :
    t.runState ≠ .faulted := by
  rcases hc.runState_eq with h | h
  · rw [h, hs]; decide
  · rw [h]; decide

/-- The one way for a step to end in Faulted: it takes a fault, whose record has the opcode byte if it was fetched. -/
theorem eq_raise_of_step_faulted (h : step s = .next t) (hf : t.runState = .faulted) :
    ∃ trap, t = s.raise (s.fetchByte 0).toOption trap := by
  obtain ⟨hs, ⟨e, ⟨x, h0⟩, rfl, -⟩ | ⟨op, e, h0, rfl, -⟩ | ⟨i, -, h0, hexec⟩⟩ := step_next h <;> rw [h0]
  · exact ⟨e, rfl⟩
  · exact ⟨e, rfl⟩
  · obtain hc | ⟨e, -, rfl⟩ := exec_next hexec
    · exact absurd hf (hc.not_faulted hs)
    · exact ⟨e, rfl⟩

end

/-- Settles O16: the state after the step is `State.raise` of the one before it, which keeps every field but the run state
and the record. -/
theorem faultsArePrecise : Obligations.FaultsArePrecise := by
  intro s t _ h hf
  obtain ⟨trap, rfl⟩ := eq_raise_of_step_faulted h hf
  exact ⟨trap, rfl, trap.cause_ne_none, rfl, rfl, s.fetchByte_zero_toOption, rfl, rfl, rfl, rfl, rfl, rfl, rfl,
    step_faulted hf⟩

end Sys2Proof.Machine
end

section
/-! PROOFS. Decoding and encoding are inverse to each other (30_encoding.md sections 1 to 4), and what the step makes of
it: the decoded instruction runs. -/

namespace Sys2Proof

open Machine

/-! ## Decoding is the inverse of encoding (R99) -/

section
variable {ext : Bool} {i : Instr} {bytes rest : List Byte}

theorem byteAt_ok_iff {k : Nat} {b : Byte} : byteAt bytes k = .ok b ↔ bytes[k]? = some b := by
  rw [byteAt]
  cases bytes[k]? <;> simp

/-- A sequence of bytes decodes as its first byte and the operands after it say. -/
theorem decode_cons (op : Byte) (rest : List Byte) :
    decode ext (op :: rest) =
      (fun i => (i, (op :: rest).drop (lengthOf op))) <$> decodeOperands .rejected (byteAt (op :: rest)) ext op := by
  rw [decode, byteAt_of_lt (Nat.zero_lt_succ _), Except.ok_bind, List.getElem_cons_zero]
  cases decodeOperands .rejected (byteAt (op :: rest)) ext op <;> rfl

theorem decode_encode_append (hw : i.wellFormed ext = true) (rest : List Byte) :
    decode ext (encode i ++ rest) = .ok (i, rest) := by
  have hreads (k : Nat) (hk : k < i.operandBytes.length) :
      byteAt (encode i ++ rest) (k + 1) = .ok i.operandBytes[k] := by
    rw [byteAt_ok_iff, List.getElem?_append_left (Nat.succ_lt_succ hk)]
    exact List.getElem?_eq_getElem hk
  calc decode ext (encode i ++ rest)
      _ = .ok (i, (encode i ++ rest).drop (lengthOf i.opcode)) := by
        rw [encode, List.cons_append, decode_cons]
        exact congrArg _ (decodeOperands_of_reads .rejected hw hreads)
      _ = .ok (i, rest) := by rw [lengthOf_opcode, List.drop_left]

theorem eq_encode_append_of_reads (h0 : bytes[0]? = some i.opcode)
    (hk : ∀ k, (hk : k < i.operandBytes.length) → bytes[k + 1]? = some i.operandBytes[k]) :
    bytes = encode i ++ bytes.drop (encode i).length := by
  have htake : bytes.take (encode i).length = encode i := by
    refine List.ext_getElem? fun k => ?_
    rw [List.getElem?_take]
    split
    · next hlt =>
      rw [List.getElem?_eq_getElem hlt]
      cases k with
      | zero => exact h0
      | succ k => exact hk k (Nat.lt_of_succ_lt_succ hlt)
    · next hge => rw [List.getElem?_eq_none (Nat.not_lt.1 hge)]
  calc bytes
      _ = bytes.take (encode i).length ++ bytes.drop (encode i).length := (List.take_append_drop _ _).symm
      _ = encode i ++ bytes.drop (encode i).length := by rw [htake]

theorem wellFormed_and_eq_encode_append_of_decode (h : decode ext bytes = .ok (i, rest)) :
    i.wellFormed ext = true ∧ bytes = encode i ++ rest := by
  cases bytes with
  | nil => cases h
  | cons op tail =>
    rw [decode_cons] at h
    cases hd : decodeOperands .rejected (byteAt (op :: tail)) ext op with
    | error e => rw [hd] at h; cases h
    | ok j =>
      rw [hd] at h
      cases h
      obtain ⟨hw, rfl, hreads⟩ := decodeOperands_ok hd
      rw [lengthOf_opcode]
      exact ⟨hw, eq_encode_append_of_reads rfl fun k hk => byteAt_ok_iff.1 (hreads k hk)⟩

end

/-- Settles O1: the reads of the encoding are the operand bytes, and the length is that of the encoding. -/
theorem decodeOfEncode : Obligations.DecodeOfEncode :=
  fun _ _ rest hw => decode_encode_append hw rest

/-- Settles O2: what was read is the encoding, byte for byte. -/
theorem decodedBytesAreTheEncoding : Obligations.DecodedBytesAreTheEncoding :=
  fun _ _ _ _ h => wellFormed_and_eq_encode_append_of_decode h

/-- Settles O3: each word is the encoding of its instruction. -/
theorem tableWordsDecode : Obligations.TableWordsDecode :=
  have hdec (ext : Bool) (i : Instr) (hw : i.wellFormed ext = true) := decode_encode_append hw []
  ⟨hdec false .hlt rfl, hdec false (.ldi .r0 8) rfl, hdec false (.prn .r3) rfl, hdec false (.sub .r1 .r6) rfl,
    hdec false (.cmp .r4 .r5) rfl, hdec false (.push .r7) rfl, hdec false (.call .r2) rfl, hdec false .ret rfl,
    hdec false (.jne .r3) rfl, hdec true (.div .r0 .r1) rfl, hdec true (.not .r2) rfl, hdec true (.shr .r6 .r7) rfl⟩

/-! ## EXT_ALU gates the extension's opcodes (R11, R89) -/

section
variable {i : Instr}

theorem wellFormed_true (i : Instr) : i.wellFormed true = true := Bool.or_true _

theorem activeEntry_false_of_isExtAlu (h : i.isExtAlu = true) : activeEntry false i.opcode = none := by
  have hw : i.wellFormed false = false := by rw [Instr.wellFormed, h]; rfl
  rw [activeEntry_opcode, hw, if_neg Bool.false_ne_true]

theorem decode_false_of_isExtAlu (h : i.isExtAlu = true) (rest : List Byte) :
    decode false (i.opcode :: rest) = .error (.rejected (.unknownOpcode i.opcode)) :=
  decode_cons_error (decodeOperands_unknown (activeEntry_false_of_isExtAlu h))

/-- An opcode that is no extension instruction's has the same row under both values, or none under both. -/
theorem activeEntry_false_eq_true {op : Byte} (h : ∀ i : Instr, i.isExtAlu = true → op ≠ i.opcode) :
    activeEntry false op = activeEntry true op := by
  by_cases hop : ∃ i : Instr, i.opcode = op
  · obtain ⟨i, rfl⟩ := hop
    have hbase : i.isExtAlu = false := Bool.eq_false_iff.2 fun hi => h i hi rfl
    rw [activeEntry_opcode, activeEntry_opcode, Instr.wellFormed, Instr.wellFormed, hbase]
    rfl
  · have hnone (ext : Bool) : activeEntry ext op = none := activeEntry_eq_none fun i _ hi => hop ⟨i, hi⟩
    rw [hnone, hnone]

theorem decode_false_eq_true {bytes : List Byte} (h : ∀ i : Instr, i.isExtAlu = true → bytes.head? ≠ some i.opcode) :
    decode false bytes = decode true bytes := by
  cases bytes with
  | nil => rfl
  | cons op rest =>
    have hop := activeEntry_false_eq_true (op := op) fun i hi heq => h i hi (congrArg some heq)
    rw [decode_cons, decode_cons, decodeOperands, decodeOperands, hop]

end

end Sys2Proof

namespace Sys2Proof.Machine

/-! ## No base instruction reads EXT_ALU (R11)

Another EXT_ALU changes nothing that a shared operation reads, and passes through to the state that it answers. -/

/-- The state with another `EXT_ALU` in its configuration. -/
def State.setExtAlu (s : State) (ext : Bool) : State := { s with cfg := { s.cfg with extAlu := ext } }

section
variable (s : State) (ext : Bool)

@[simp] theorem State.readReg_setExtAlu (r : Reg) : (s.setExtAlu ext).readReg r = s.readReg r := rfl
@[simp] theorem State.readTwo_setExtAlu (ra rb : Reg) : (s.setExtAlu ext).readTwo ra rb = s.readTwo ra rb := rfl
@[simp] theorem State.stackTop_setExtAlu : (s.setExtAlu ext).stackTop = s.stackTop := rfl
@[simp] theorem State.returnByte_setExtAlu : (s.setExtAlu ext).returnByte = s.returnByte := rfl

theorem State.setPc_setExtAlu (p : Pc) : (s.setExtAlu ext).setPc p = (s.setPc p).setExtAlu ext := rfl
theorem State.setMem_setExtAlu (m : Memory) : (s.setExtAlu ext).setMem m = (s.setMem m).setExtAlu ext := rfl
theorem State.emit_setExtAlu (v : Byte) : (s.setExtAlu ext).emit v = (s.emit v).setExtAlu ext := rfl
theorem State.advance_setExtAlu (n : Pc) : (s.setExtAlu ext).advance n = (s.advance n).setExtAlu ext := rfl
theorem State.writeReg_setExtAlu (r : Reg) (v : Byte) :
    (s.setExtAlu ext).writeReg r v = (s.writeReg r v).setExtAlu ext := rfl

theorem State.decSp_setExtAlu : (s.setExtAlu ext).decSp = (State.setExtAlu · ext) <$> s.decSp := by
  simp [State.decSp, State.writeReg_setExtAlu]

theorem State.incSp_setExtAlu : (s.setExtAlu ext).incSp = (State.setExtAlu · ext) <$> s.incSp := by
  simp [State.incSp, State.writeReg_setExtAlu]

theorem State.setStackTop_setExtAlu (v : Byte) :
    (s.setExtAlu ext).setStackTop v = (State.setExtAlu · ext) <$> s.setStackTop v := by
  have hmem : (s.setExtAlu ext).mem = s.mem := rfl
  simp [State.setStackTop, State.setMem_setExtAlu, hmem]

theorem State.jumpTo_setExtAlu (ra : Reg) :
    (s.setExtAlu ext).jumpTo ra = (State.setExtAlu · ext) <$> s.jumpTo ra := by
  simp [State.jumpTo, State.setPc_setExtAlu]

theorem alu_eq_of_not_isExtAlu {i : Instr} (hi : i.isExtAlu = false) (x y : Bool) (a b : Byte) (rb : Reg) :
    alu x i.opcode a rb b = alu y i.opcode a rb b := by
  cases i with
  | div | and | or | xor | not | shl | shr => cases hi
  | add | sub | mul | cmp => rfl
  | hlt | ldi | prn | push | pop | call | ret | jmp | jeq | jne => cases x <;> cases y <;> rfl

theorem State.aluTwo_setExtAlu {i : Instr} (hi : i.isExtAlu = false) (ra rb : Reg) :
    (s.setExtAlu ext).aluTwo i.opcode ra rb = (State.setExtAlu · ext) <$> s.aluTwo i.opcode ra rb := by
  rw [State.aluTwo, State.aluTwo, State.readTwo_setExtAlu]
  cases s.readTwo ra rb with
  | error e => rfl
  | ok ab =>
    obtain ⟨a, b⟩ := ab
    simp only [Except.ok_bind, alu_eq_of_not_isExtAlu hi (s.setExtAlu ext).cfg.extAlu s.cfg.extAlu]
    rcases alu s.cfg.extAlu i.opcode a rb b with e | v | fl <;> rfl

variable {s ext}

/-- The end of an instruction whose effect passes another EXT_ALU through; the record of a fault does not name it. -/
theorem State.complete_setExtAlu {op : Byte} {e e' : Except Trap State} (h : e' = (State.setExtAlu · ext) <$> e) :
    (s.setExtAlu ext).complete op e' = mapNext (State.setExtAlu · ext) (s.complete op e) := by
  subst h
  cases e <;> rfl

theorem ite_setExtAlu {c : Prop} [Decidable c] {x x' y y' : Except Trap State}
    (hx : x' = (State.setExtAlu · ext) <$> x) (hy : y' = (State.setExtAlu · ext) <$> y) :
    (if c then x' else y') = (State.setExtAlu · ext) <$> (if c then x else y) := by
  split <;> assumption

theorem exec_setExtAlu {i : Instr} (hi : i.isExtAlu = false) :
    exec i (s.setExtAlu ext) = mapNext (State.setExtAlu · ext) (exec i s) := by
  cases i with
  | div | and | or | xor | not | shl | shr => cases hi
  | hlt | ldi => rfl
  | add ra rb | sub ra rb | mul ra rb | cmp ra rb =>
    exact State.complete_setExtAlu (State.aluTwo_setExtAlu s ext hi ra rb)
  | prn ra => exact State.complete_setExtAlu (by simp [State.emit_setExtAlu, State.advance_setExtAlu])
  | push ra =>
    exact State.complete_setExtAlu
      (by simp [State.decSp_setExtAlu, State.setStackTop_setExtAlu, State.advance_setExtAlu])
  | pop ra =>
    exact State.complete_setExtAlu (by simp [State.writeReg_setExtAlu, State.incSp_setExtAlu, State.advance_setExtAlu])
  | call ra =>
    exact State.complete_setExtAlu
      (by simp [State.decSp_setExtAlu, State.setStackTop_setExtAlu, State.jumpTo_setExtAlu])
  | ret => exact State.complete_setExtAlu (by simp [State.incSp_setExtAlu, State.setPc_setExtAlu])
  | jmp ra => exact State.complete_setExtAlu (State.jumpTo_setExtAlu s ext ra)
  | jeq ra => exact State.complete_setExtAlu (ite_setExtAlu (State.jumpTo_setExtAlu s ext ra) rfl)
  | jne ra => exact State.complete_setExtAlu (ite_setExtAlu rfl (State.jumpTo_setExtAlu s ext ra))

end

/-- Settles O6: the active map decides what decodes, and the ALU alone reads EXT_ALU, for the extension's selects
only. -/
theorem extAluGatesTheExtension : Obligations.ExtAluGatesTheExtension :=
  ⟨fun i rest hi => ⟨decode_false_of_isExtAlu hi _, decode_encode_append (wellFormed_true i) rest⟩,
    fun _ h => decode_false_eq_true h, fun _ _ _ hi => exec_setExtAlu hi⟩

/-! ## The step runs what decodes (section 5) -/

/-- Settles O7: the bytes at the PC begin with the encoding of a well-formed instruction. -/
theorem stepRunsTheDecodedInstruction : Obligations.StepRunsTheDecodedInstruction := by
  intro s bytes rest i hrun hbytes hd
  obtain ⟨hw, rfl⟩ := wellFormed_and_eq_encode_append_of_decode hd
  exact step_of_bytesAtPc hrun hw (bytesAtPc_append_left hbytes)

theorem isExtOpcode_opcode (i : Instr) : isExtOpcode i.opcode = i.isExtAlu := by
  cases i <;> rfl

theorem bytesAtPc_of_place {s : State} {bytes : List Byte} {m : Memory} (hs : s.mem = Memory.place s.pc.toNat bytes m)
    (hpc : s.pc.toNat + bytes.length ≤ 256) : BytesAtPc s bytes := by
  intro k hk
  rw [hs, Memory.read_place _ _ _ _ hpc, if_pos (by omega), Nat.add_sub_cancel_left]
  exact ⟨by omega, List.getElem?_eq_getElem hk⟩

/-- A table word decodes to an instruction whose encoding its three bytes begin with. -/
theorem exists_tableBytes_eq {nbits w : Nat} {i : Instr} (h : decodeTableWord nbits w = some i) :
    ∃ rest, tableBytes nbits w = encode i ++ rest := by
  rw [decodeTableWord] at h
  split at h
  · next j rest hd =>
    cases h
    exact ⟨rest, (wellFormed_and_eq_encode_append_of_decode hd).2⟩
  · cases h

/-- Settles O8: the placed bytes are at the PC, and `withFetchWord` sets EXT_ALU where the opcode needs it. -/
theorem placedWordRunsNext : Obligations.PlacedWordRunsNext := by
  intro s nbits w i hd hpc
  obtain ⟨rest, hbytes⟩ := exists_tableBytes_eq hd
  have hop : BitVec.ofNat 8 (w % 2 ^ nbits) = i.opcode := List.head_eq_of_cons_eq hbytes
  have hw : i.wellFormed (s.withFetchWord nbits w).cfg.extAlu = true := by
    rw [State.withFetchWord, hop, isExtOpcode_opcode, Instr.wellFormed]
    cases i.isExtAlu <;> rfl
  have hat : BytesAtPc (s.withFetchWord nbits w) (tableBytes nbits w) :=
    bytesAtPc_of_place (m := s.mem) rfl (Nat.add_le_add_right hpc 3)
  rw [hbytes] at hat
  exact step_of_bytesAtPc rfl hw (bytesAtPc_append_left hat)

end Sys2Proof.Machine
end

section
/-! PROOFS. What a completed instruction can change, said once: its frame, and what every step keeps (10_state.md). -/

namespace Sys2Proof.Machine

/-! ## The effect of a completed instruction -/

/-- From a PC that is the address of a byte, PC moves to `p` within 0..258 (10_state.md R25, R26). -/
abbrev StaysInRange (s : State) (p : Pc) : Prop := s.pc.toNat ≤ 255 → p.toNat ≤ 258

theorem staysInRange_add (s : State) {n : Pc} (hn : n.toNat ≤ 3) : StaysInRange s (s.pc + n) := by
  intro hpc
  have hadd : (s.pc + n).toNat = s.pc.toNat + n.toNat := State.advance_pc_toNat hpc hn
  omega

theorem staysInRange_toPc (s : State) (v : Byte) : StaysInRange s v.toPc := by
  intro _
  have hv : v.toNat < 256 := v.isLt
  rw [Byte.toPc_toNat]
  omega

/-- The registers that an instruction writes when it completes, SP included. -/
def destRegs : Instr → List Reg
  | .hlt | .prn .. | .cmp .. | .jmp .. | .jeq .. | .jne .. => []
  | .ldi ra _ | .add ra _ | .sub ra _ | .mul ra _ | .div ra _ | .and ra _ | .or ra _ | .xor ra _ | .not ra | .shl ra _
  | .shr ra _ => [ra]
  | .push .. | .call .. | .ret => [.sp]
  | .pop ra => [ra, .sp]

/-- The addresses that an instruction stores to when it completes in `s`. -/
def storeAddrs (s : State) : Instr → List Nat
  | .push .. | .call .. => [pushAddr s]
  | _ => []

/-- The effects that a completed instruction `i` can have on `s`, with the instructions that have them. -/
inductive Effect (i : Instr) (s : State) : State → Prop
  | halt (hi : i = .hlt) : Effect i s { s with pc := 0, runState := .halted }
  | emit (v : Byte) {p : Pc} {ra : Reg} (hi : i = .prn ra) (hp : StaysInRange s p) : Effect i s ((s.emit v).setPc p)
  | flags (a b : Byte) {p : Pc} {ra rb : Reg} (hi : i = .cmp ra rb) (hp : StaysInRange s p) :
      Effect i s ((s.setFl (cmpFlags a b)).setPc p)
  | jump {p : Pc} (hi : destRegs i = []) (hp : StaysInRange s p) : Effect i s (s.setPc p)
  | write (r : Reg) (v : Byte) {p : Pc} (hi : destRegs i = [r]) (hp : StaysInRange s p) :
      Effect i s ((s.writeReg r v).setPc p)
  | push (v : Byte) {p : Pc} (hi : destRegs i = [.sp]) (ha : storeAddrs s i = [pushAddr s]) (hp : StaysInRange s p) :
      Effect i s ((s.pushByte v).setPc p)
  | pop (r : Reg) (v : Byte) {p : Pc} (hi : destRegs i = [r, .sp]) (hp : StaysInRange s p) :
      Effect i s ((s.popInto r v).setPc p)

/-- An instruction that completes has one of these effects. -/
theorem Completes.effect {i : Instr} {s t : State} (hc : Completes i s t) : Effect i s t := by
  have h2 : StaysInRange s (s.pc + 2) := staysInRange_add s (by decide)
  have h3 : StaysInRange s (s.pc + 3) := staysInRange_add s (by decide)
  cases i with
  | hlt => subst hc; exact .halt rfl
  | ldi ra imm => subst hc; exact .write ra imm rfl h3
  | prn ra => obtain ⟨-, rfl⟩ := hc; exact .emit _ rfl h2
  | cmp ra rb => obtain ⟨-, -, rfl⟩ := hc; exact .flags _ _ rfl h3
  | add ra rb | sub ra rb | mul ra rb | div ra rb | and ra rb | or ra rb | xor ra rb | shl ra rb | shr ra rb =>
    obtain ⟨-, -, v, rfl⟩ := hc
    exact .write ra v rfl h3
  | not ra => obtain ⟨-, v, rfl⟩ := hc; exact .write ra v rfl h2
  | push ra => obtain ⟨-, v, rfl, -⟩ := hc; exact .push v rfl rfl h2
  | pop ra => obtain ⟨-, v, -, rfl⟩ := hc; exact .pop ra v rfl h2
  | call ra => obtain ⟨-, -, -, rfl⟩ := hc; exact .push s.callReturn rfl rfl (staysInRange_toPc s _)
  | ret => obtain ⟨-, v, -, rfl⟩ := hc; exact .write .sp _ rfl (staysInRange_toPc s v)
  | jmp ra => obtain ⟨-, rfl⟩ := hc; exact .jump rfl (staysInRange_toPc s _)
  | jeq ra | jne ra =>
    rcases hc with ⟨-, -, rfl⟩ | ⟨-, rfl⟩
    · exact .jump rfl (staysInRange_toPc s _)
    · exact .jump rfl h2

namespace Effect

variable {i : Instr} {s t : State} (h : Effect i s t)
include h

theorem cfg_eq : t.cfg = s.cfg := by
  cases h <;> rfl

theorem fault_eq : t.fault = s.fault := by
  cases h <;> rfl

theorem runState_eq : t.runState = s.runState ∨ i = .hlt ∧ t.runState = .halted ∧ t.pc = 0 := by
  cases h with
  | halt hi => exact .inr ⟨hi, rfl, rfl⟩
  | emit | flags | jump | write | push | pop => exact .inl rfl

theorem pc_le (hpc : s.pc.toNat ≤ 255) : t.pc.toNat ≤ 258 := by
  cases h with
  | halt => exact Nat.zero_le _
  | emit _ _ hp | flags _ _ _ hp | jump _ hp | write _ _ _ hp | push _ _ _ hp | pop _ _ _ hp => exact hp hpc

/-- FL keeps its value, or is what a comparison gives (10_state.md R28, R29). -/
theorem fl_eq : t.fl = s.fl ∨ t.fl = 0x01#8 ∨ t.fl = 0x02#8 ∨ t.fl = 0x04#8 := by
  cases h with
  | flags a b =>
    obtain ⟨-, e⟩ | ⟨-, e⟩ | ⟨-, e⟩ := cmpFlags_cases a b
    · exact .inr (.inl e)
    · exact .inr (.inr (.inl e))
    · exact .inr (.inr (.inr e))
  | halt | emit | jump | write | push | pop => exact .inl rfl

theorem output_eq : t.output = s.output ∨ (∃ ra, i = .prn ra) ∧ ∃ v, t.output = s.output ++ [v] := by
  cases h with
  | emit v hi => exact .inr ⟨⟨_, hi⟩, v, rfl⟩
  | halt | flags | jump | write | push | pop => exact .inl rfl

theorem mem_eq : t.mem = s.mem ∨ storeAddrs s i = [pushAddr s] ∧ ∃ v, t.mem = s.mem.write (pushAddr s) v := by
  cases h with
  | push v hi ha => exact .inr ⟨ha, v, s.pushByte_mem v⟩
  | halt | emit | flags | jump | write | pop => exact .inl rfl

theorem keepsRegs : KeepsRegs (destRegs i) s t := by
  cases h with
  | halt | emit | flags | jump => exact fun _ _ => ⟨rfl, rfl⟩
  | write r v hi => rw [hi]; exact keepsRegs_writeReg s r v
  | push v hi => rw [hi]; exact keepsRegs_writeReg s .sp _
  | pop r v hi =>
    obtain ⟨hregs, -⟩ := keepsBut_popInto s r v
    rw [hi]
    exact hregs

theorem keepsMem : KeepsMem (storeAddrs s i) s t := by
  intro a ha
  rcases h.mem_eq with e | ⟨hs, v, e⟩ <;> rw [e]
  rw [hs] at ha
  exact Memory.read_write_ne v s.mem (List.ne_of_not_mem_cons ha)

/-- A register that has its mark keeps it: writing a register only sets its mark. -/
theorem readable {r : Reg} (hr : Readable s r) : Readable t r := by
  cases h with
  | halt | emit | flags | jump => exact hr
  | write q v => exact readable_writeReg hr q v
  | push v => exact readable_pushByte hr v
  | pop q v => exact readable_writeReg (readable_writeReg hr q v) .sp ((s.regs.set q v).get .sp + 1)

theorem mem_wf (hm : s.mem.wf) : t.mem.wf := by
  rcases h.mem_eq with e | ⟨-, v, e⟩ <;> rw [e]
  · exact hm
  · exact Memory.wf_write v (Nat.mod_lt _ (by decide)) hm

theorem mem_read_ne_none {a : Nat} (ha : s.mem.read a ≠ none) : t.mem.read a ≠ none := by
  rcases h.mem_eq with e | ⟨-, v, e⟩ <;> rw [e]
  · exact ha
  · exact Memory.read_write_mono v ha

end Effect

theorem exec_effect {i : Instr} {s t : State} (h : exec i s = .next t) :
    Effect i s t ∨ ∃ e, Raises i s e ∧ t = s.raise (some i.opcode) e :=
  (exec_next h).imp_left Completes.effect

/-! ## Frames -/

/-- What an instruction keeps, whether it completes or faults. -/
structure Frame (i : Instr) (s t : State) : Prop where
  regs : KeepsRegs (destRegs i) s t
  mem : KeepsMem (storeAddrs s i) s t
  cfg : t.cfg = s.cfg
  fl : (∀ ra rb, i ≠ .cmp ra rb) → t.fl = s.fl
  output : (∀ ra, i ≠ .prn ra) → t.output = s.output
  run : i ≠ .hlt → t.runState ≠ .faulted → KeepsRun s t

theorem exec_frame {i : Instr} {s t : State} (h : exec i s = .next t) : Frame i s t := by
  rcases exec_effect h with he | ⟨e, -, rfl⟩
  · refine ⟨he.keepsRegs, he.keepsMem, he.cfg_eq, exec_fl_eq h, fun hi => ?output, fun hi _ => ?run⟩
    case output => exact he.output_eq.resolve_right fun ⟨⟨ra, hprn⟩, _⟩ => hi ra hprn
    case run => exact ⟨he.cfg_eq, he.runState_eq.resolve_right fun ⟨hhlt, _⟩ => hi hhlt, he.fault_eq⟩
  · exact ⟨fun _ _ => ⟨rfl, rfl⟩, fun _ _ => rfl, rfl, fun _ => rfl, fun _ => rfl, fun _ hf => absurd rfl hf⟩

/-- The frame of an instruction that writes a register: neither FL nor the output changes, and it does not halt. -/
theorem exec_frame_of_destRegs {i : Instr} {s t : State} {r : Reg} {rs : List Reg} {as : List Nat}
    (h : exec i s = .next t) (hrs : destRegs i = r :: rs) (has : storeAddrs s i = as) :
    KeepsRegs (r :: rs) s t ∧ KeepsMem as s t ∧ t.fl = s.fl ∧ t.output = s.output ∧ t.cfg = s.cfg ∧
      (t.runState ≠ .faulted → KeepsRun s t) := by
  have hne {j : Instr} (hj : destRegs j = []) : i ≠ j := by
    rintro rfl
    rw [hrs] at hj
    cases hj
  obtain ⟨hregs, hmem, hcfg, hfl, hout, hrun⟩ := exec_frame h
  exact ⟨hrs ▸ hregs, has ▸ hmem, hfl fun _ _ => hne rfl, hout fun _ => hne rfl, hcfg, hrun (hne rfl)⟩

/-- Settles O51: each of them writes its first operand and stores nothing. -/
theorem registerWriterFrame : Obligations.RegisterWriterFrame := by
  intro i ra rb imm s t hi h
  obtain ⟨hrs, has⟩ : destRegs i = [ra] ∧ storeAddrs s i = [] := by
    simp only [List.mem_cons, List.not_mem_nil, or_false] at hi
    rcases hi with rfl | rfl | rfl | rfl | rfl | rfl | rfl | rfl | rfl | rfl | rfl <;> exact ⟨rfl, rfl⟩
  obtain ⟨hregs, hmem, hrest⟩ := exec_frame_of_destRegs h hrs has
  exact ⟨hregs, fun a => hmem a List.not_mem_nil, hrest⟩

/-- Settles O52: none of them writes a register or stores, and HLT completes, so it keeps the record. -/
theorem noRegisterFrame : Obligations.NoRegisterFrame := by
  intro i ra rb s t hi h
  obtain ⟨hrs, has⟩ : destRegs i = [] ∧ storeAddrs s i = [] := by
    simp only [List.mem_cons, List.not_mem_nil, or_false] at hi
    rcases hi with rfl | rfl | rfl | rfl | rfl | rfl <;> exact ⟨rfl, rfl⟩
  have hcmp (hne : i ≠ .cmp ra rb) (x y : Reg) : i ≠ .cmp x y := by
    rintro rfl
    exact hne (by simpa using hi)
  have hprn (hne : i ≠ .prn ra) (x : Reg) : i ≠ .prn x := by
    rintro rfl
    exact hne (by simpa using hi)
  obtain ⟨hregs, hmem, hcfg, hfl, hout, hrun⟩ := exec_frame h
  refine ⟨hrs ▸ hregs, fun a => ?mem, hcfg, fun hne => hfl (hcmp hne), fun hne => hout (hprn hne), hrun, ?hlt⟩
  case mem => exact hmem a (has ▸ List.not_mem_nil)
  case hlt =>
    rintro rfl
    rw [exec_hlt] at h
    cases h
    rfl

/-- Settles O53: each of them writes SP and stores to the address of the decremented SP. -/
theorem stackWriterFrame : Obligations.StackWriterFrame := by
  intro i ra s t hi h
  obtain ⟨hrs, has⟩ : destRegs i = [.sp] ∧ storeAddrs s i = [pushAddr s] := by
    simp only [List.mem_cons, List.not_mem_nil, or_false] at hi
    rcases hi with rfl | rfl <;> exact ⟨rfl, rfl⟩
  obtain ⟨hregs, hmem, hrest⟩ := exec_frame_of_destRegs h hrs has
  rw [toNat_sp_sub_one]
  exact ⟨hregs, fun a ha => hmem a fun hin => ha (List.mem_singleton.1 hin), hrest⟩

/-- Settles O54: POP writes its destination and SP, RET only SP, and neither stores. -/
theorem stackReaderFrame : Obligations.StackReaderFrame := by
  intro i ra s t hi h
  simp only [List.mem_cons, List.not_mem_nil, or_false] at hi
  rcases hi with rfl | rfl <;> obtain ⟨hregs, hmem, hrest⟩ := exec_frame_of_destRegs h rfl rfl <;>
    exact ⟨hregs, fun a => hmem a List.not_mem_nil, hrest⟩

end Sys2Proof.Machine
end

section
/-! PROOFS. What every step keeps: the invariant, the marks, the configuration, and which faults it can take. -/

namespace Sys2Proof.Machine

/-! ## A Running core always steps (30_encoding.md section 5) -/

theorem State.exists_complete_eq_next (s : State) (op : Byte) (e : Except Trap State) :
    ∃ t, s.complete op e = .next t := by
  cases e <;> exact ⟨_, rfl⟩

/-- Every instruction's meaning ends in `State.complete`, so none of them refuses. -/
theorem exists_exec_eq_next (i : Instr) (s : State) : ∃ t, exec i s = .next t := by
  cases i with
  | hlt => exact ⟨_, exec_hlt s⟩
  | ldi ra imm => exact ⟨_, exec_ldi ra imm s⟩
  | _ => exact State.exists_complete_eq_next s _ _

/-- Settles O14: a fault of the fetch is a next state, and so is the outcome of every instruction. -/
theorem runningCoreAlwaysSteps : Obligations.RunningCoreAlwaysSteps := by
  intro s hrun
  rw [step_running hrun]
  cases s.fetchInstr with
  | error f => exact ⟨_, rfl⟩
  | ok i => exact exists_exec_eq_next i s

/-! ## A step completes an instruction or takes one fault -/

section
variable {s t : State}

/-- A step has the effect of the well-formed instruction at the PC, or takes a fault that is neither
UnsupportedOperation nor the read of a register that has its mark. -/
theorem step_effect (h : step s = .next t) :
    s.runState = .running ∧
      ((s.pc.toNat ≤ 255 ∧ ∃ i, Effect i s t) ∨
        ∃ op e, t = s.raise op e ∧ e.cause ≠ .unsupportedOperation ∧ ∀ r, Readable s r → e ≠ .unwrittenReg r) := by
  obtain ⟨hrun, ⟨e, -, rfl, hcause, hreg⟩ | ⟨op, e, -, rfl, hcause, hreg⟩ | ⟨i, hw, h0, hexec⟩⟩ := step_next h
  · exact ⟨hrun, .inr ⟨none, e, rfl, hcause, fun r _ => hreg r⟩⟩
  · exact ⟨hrun, .inr ⟨some op, e, rfl, hcause, fun r _ => hreg r⟩⟩
  · refine ⟨hrun, (exec_effect hexec).imp (fun he => ⟨?pc, i, he⟩) fun ⟨e, hr, ht⟩ => ⟨_, e, ht, ?cause, ?reg⟩⟩
    case pc => exact Nat.le_of_lt_succ (State.fetchByte_ok_iff.1 h0).1
    case cause =>
      cases e with
      | unsupportedOperation sel =>
        obtain ⟨hext, hoff, -⟩ := hr
        rw [Instr.wellFormed, hext, hoff] at hw
        cases hw
      | unknownOpcode | boundsFault | illegalRegister | divideByZero | unwrittenReg | unwrittenByte =>
        simp [Trap.cause]
    case reg =>
      rintro r hmark rfl
      exact hr hmark

theorem Effect.not_faulted {i : Instr} (h : Effect i s t) (hrun : s.runState = .running) : t.runState ≠ .faulted := by
  obtain e | ⟨-, e, -⟩ := h.runState_eq <;> rw [e]
  · rw [hrun]; decide
  · decide

/-! ## The invariant -/

theorem State.Inv.cause_eq_none (hs : s.Inv) (hrun : s.runState ≠ .faulted) : s.fault.cause = .none :=
  not_not.1 fun hc => hrun (hs.faultCause.2 hc)

theorem Effect.inv {i : Instr} (h : Effect i s t) (hs : s.Inv) (hrun : s.runState = .running)
    (hpc : s.pc.toNat ≤ 255) : t.Inv where
  pcRange := h.pc_le hpc
  flOneHot := by
    obtain e | e := h.fl_eq
    · rw [e]; exact hs.flOneHot
    · exact .inr e
  memWf := h.mem_wf hs.memWf
  spWritten := h.readable hs.spWritten
  faultCause := by
    rw [h.fault_eq, hs.cause_eq_none (by rw [hrun]; decide)]
    exact ⟨fun hf => absurd hf (h.not_faulted hrun), fun hc => absurd rfl hc⟩
  faultPc := fun hf => absurd hf (h.not_faulted hrun)
  haltedPc := by
    obtain e | ⟨-, -, hp⟩ := h.runState_eq
    · rw [e, hrun]; exact fun hh => absurd hh (by decide)
    · exact fun _ => hp

/-- Taking a fault keeps the invariant: the record has a cause, and its PC is the PC, which does not move. -/
theorem State.Inv.raise (hs : s.Inv) (op : Option Byte) (e : Trap) : (s.raise op e).Inv where
  pcRange := hs.pcRange
  flOneHot := hs.flOneHot
  memWf := hs.memWf
  spWritten := hs.spWritten
  faultCause := ⟨fun _ => e.cause_ne_none, fun _ => rfl⟩
  faultPc := fun _ => rfl
  haltedPc := fun hh => absurd hh (by rw [State.raise_runState]; decide)

end

/-- Settles O23: a step has the effect of an instruction whose opcode is at a PC of at most 255, or takes a fault. -/
theorem stepKeepsInv : Obligations.StepKeepsInv := by
  intro s t hs h
  obtain ⟨hrun, ⟨hpc, i, he⟩ | ⟨op, e, rfl, -⟩⟩ := step_effect h
  · exact he.inv hs hrun hpc
  · exact hs.raise op e

theorem State.powerOn_inv (cfg : Config) : (State.powerOn cfg).Inv where
  pcRange := Nat.zero_le _
  flOneHot := .inl rfl
  memWf := Memory.wf_ofBytesFrom 0 _
  spWritten := rfl
  faultCause := ⟨(fun hf => nomatch hf), fun hc => absurd rfl hc⟩
  faultPc := fun hf => nomatch hf
  haltedPc := fun _ => rfl

/-- The invariant asks of memory only its canonical form. -/
theorem State.Inv.setMem {s : State} (hs : s.Inv) {m : Memory} (hm : m.wf) : (s.setMem m).Inv :=
  { hs with memWf := hm }

theorem State.Inv.restart {s t : State} (hs : s.Inv) {file : Option Text} (h : s.restart file = .ok t) : t.Inv := by
  cases file with
  | none => cases h
  | some text =>
    cases hp : parseProgram text with
    | error e => rw [State.restart, hp] at h; cases h
    | ok image =>
      rw [State.restart, hp] at h
      cases h
      exact ((State.powerOn_inv s.cfg).setMem hs.memWf).setMem (Memory.wf_place 0 image hs.memWf)

/-- Settles O24: the lifecycle is a reset, which sets all but memory, and the load port's writes. -/
theorem invHoldsAfterReset : Obligations.InvHoldsAfterReset :=
  ⟨State.powerOn_inv Config.standard, fun cfg _ _ h => (State.powerOn_inv cfg).restart h⟩

/-- Settles O21: the values of the standard configuration. -/
theorem stateAfterReset : Obligations.StateAfterReset := by
  refine ⟨rfl, rfl, rfl, rfl, rfl, rfl, rfl, fun r hr => ?zeros, fun r => ?marks, Memory.read_nil⟩
  case zeros =>
    cases r with
    | r7 => exact absurd rfl hr
    | r0 | r1 | r2 | r3 | r4 | r5 | r6 => rfl
  case marks => cases r <;> rfl

/-! ## What a step never undoes (10_state.md sections 1, 4 and 6) -/

/-- Settles O25: an effect sets marks, lists bytes and appends at most one byte of output; a fault does none of it. -/
theorem stepOnlyAddsMarksAndOutput : Obligations.StepOnlyAddsMarksAndOutput := by
  intro s t h
  obtain ⟨-, ⟨-, i, he⟩ | ⟨op, e, rfl, -⟩⟩ := step_effect h
  · refine ⟨he.cfg_eq, fun r => he.readable, fun a => he.mem_read_ne_none, ?output⟩
    case output =>
      obtain e | ⟨-, v, e⟩ := he.output_eq
      · exact ⟨[], by rw [e, List.append_nil], Nat.zero_le 1⟩
      · exact ⟨[v], e, Nat.le_refl 1⟩
  · exact ⟨rfl, fun _ hr => hr, fun _ ha => ha, [], (List.append_nil _).symm, Nat.zero_le 1⟩

/-! ## Faults that a run does not take -/

/-- Every UnwrittenRead in the record names an address. -/
def State.UnwrittenNamesAddress (s : State) : Prop := s.fault.cause = .unwrittenRead → ∃ a, s.fault.info = .address a

/-- An UnwrittenRead that is no register's is a byte's. -/
theorem State.unwrittenNamesAddress_raise (s : State) (op : Option Byte) {e : Trap} (he : ∀ r, e ≠ .unwrittenReg r) :
    (s.raise op e).UnwrittenNamesAddress := by
  intro hc
  cases e with
  | unwrittenReg r => exact absurd rfl (he r)
  | unwrittenByte a => exact ⟨a, rfl⟩
  | unknownOpcode | unsupportedOperation | boundsFault | illegalRegister | divideByZero => cases hc

theorem step_keeps_allMarked {s t : State} (h : step s = .next t) (hs : s.AllMarked ∧ s.UnwrittenNamesAddress) :
    t.AllMarked ∧ t.UnwrittenNamesAddress := by
  obtain ⟨hmark, hinfo⟩ := hs
  obtain ⟨-, ⟨-, i, he⟩ | ⟨op, e, rfl, -, hreg⟩⟩ := step_effect h
  · refine ⟨fun r => he.readable (hmark r), ?_⟩
    rw [State.UnwrittenNamesAddress, he.fault_eq]
    exact hinfo
  · exact ⟨hmark, s.unwrittenNamesAddress_raise op fun r => hreg r (hmark r)⟩

/-- Settles O19, by induction on the run: marks stay set, so no fault is a register's UnwrittenRead. -/
theorem markedRegistersNeverFault : Obligations.MarkedRegistersNeverFault := by
  intro s t hmark hclear hreach
  induction hreach with
  | refl => exact ⟨hmark, fun hc => by rw [hclear] at hc; cases hc⟩
  | step _ hstep ih => exact step_keeps_allMarked hstep ih

/-- A select that is no operation's opcode is in neither set of the ALU. -/
theorem alu_eq_unsupported {ext : Bool} {sel a b : Byte} {rb : Reg} (hbase : aluBase sel a b = none)
    (hext : ext = true → sel ≠ Opcode.div ∧ aluExt sel a b = none) :
    alu ext sel a rb b = .error (.unsupportedOperation sel) := by
  rw [alu, hbase]
  cases ext with
  | false => rfl
  | true =>
    obtain ⟨hdiv, hnone⟩ := hext rfl
    simp [hdiv, hnone]

theorem aluBase_eq_none {sel : Byte}
    (h : ∀ i ∈ [Instr.add .r0 .r0, .sub .r0 .r0, .mul .r0 .r0, .cmp .r0 .r0], sel ≠ i.opcode) (a b : Byte) :
    aluBase sel a b = none := by
  simp only [List.forall_mem_cons, Instr.opcode] at h
  obtain ⟨hadd, hsub, hmul, hcmp, -⟩ := h
  rw [aluBase, if_neg hadd, if_neg hsub, if_neg hmul, if_neg hcmp]

theorem aluExt_eq_none {sel : Byte} (h : ∀ i ∈ [Instr.div .r0 .r0, .and .r0 .r0, .or .r0 .r0, .xor .r0 .r0, .not .r0,
    .shl .r0 .r0, .shr .r0 .r0], sel ≠ i.opcode) (a b : Byte) : sel ≠ Opcode.div ∧ aluExt sel a b = none := by
  simp only [List.forall_mem_cons, Instr.opcode] at h
  obtain ⟨hdiv, hand, hor, hxor, hnot, hshl, hshr, -⟩ := h
  rw [aluExt, if_neg hand, if_neg hor, if_neg hxor, if_neg hnot, if_neg hshl, if_neg hshr]
  exact ⟨hdiv, rfl⟩

/-- Settles O18: no well-formed instruction sends the ALU a select outside its set. -/
theorem unsupportedOperationIsUnreachable : Obligations.UnsupportedOperationIsUnreachable := by
  refine ⟨fun ext sel a b rb hbase hext => ?alu, fun s t hrun h hf => ?step, fun _ => rfl,
    fun _ rest hi => decode_false_of_isExtAlu hi rest⟩
  case alu =>
    exact alu_eq_unsupported (aluBase_eq_none (hbase .r0 .r0) a b) fun hx => aluExt_eq_none (hext hx .r0 .r0) a b
  case step =>
    obtain ⟨-, ⟨-, i, he⟩ | ⟨op, e, rfl, hcause, -⟩⟩ := step_effect h
    · exact absurd hf (he.not_faulted hrun)
    · exact hcause

end Sys2Proof.Machine
end

section
/-! PROOFS. Memory accesses (20_memory.md section 2), the jump to itself (44_control.md), and the zero divisor of DIV
(42_alu.md section 3). -/

namespace Sys2Proof.Machine

/-! ## MemRead and MemWrite (R54) -/

theorem memWrite_of_lt {a : Nat} (m : Memory) (v : Byte) (ha : a < 256) : memWrite m a v = .ok (m.write a v) := by
  rw [memWrite_eq, if_pos ha]

/-- Settles O26: the bound is checked first, and a write inside it is what the laws of memory speak of. -/
theorem memoryAccess : Obligations.MemoryAccess := by
  intro m a v
  refine ⟨fun ha => ?written, fun ha => ⟨?writeBound, ?readBound⟩, fun ha hm => ?unwritten⟩
  case written =>
    have hlt : a < 256 := Nat.lt_succ_of_le ha
    exact ⟨_, memWrite_of_lt m v hlt, memRead_ok_iff.2 ⟨hlt, Memory.read_write_self a v m⟩,
      fun _ => Memory.read_write_ne v m, Memory.wf_write v hlt⟩
  case writeBound => rw [memWrite_eq, if_neg (by omega)]
  case readBound => rw [memRead_eq, if_neg (by omega)]
  case unwritten => rw [memRead_eq, if_pos (by omega), hm]

/-! ## JMP to its own address (R183, R218) -/

theorem exec_jmp_of_readable {s : State} {r : Reg} (h : Readable s r) :
    exec (.jmp r) s = .next (s.setPc (s.regs.get r).toPc) := by
  rw [exec, execJmp, State.jumpTo_of_readable h, State.complete_ok]

/-- A state that steps to itself reaches nothing else. -/
theorem eq_of_reaches_of_step_self {s t : State} (hstep : step s = .next s) (h : Reaches s t) : t = s := by
  induction h with
  | refl => rfl
  | step _ hnext ih =>
    subst ih
    rw [hstep] at hnext
    cases hnext
    rfl

/-- Settles O50: the jump sets PC to what it is, so the step answers the same state. -/
theorem jumpToItselfRunsForever : Obligations.JumpToItselfRunsForever := by
  intro r s hrun hr hbytes hval
  have hpc : (s.regs.get r).toPc = s.pc := BitVec.eq_of_toNat_eq ((Byte.toPc_toNat _).trans hval)
  have hstep : step s = .next s := by
    rw [step_of_bytesAtPc hrun rfl hbytes, exec_jmp_of_readable hr, hpc]
    rfl
  have hreach (t : State) (ht : Reaches s t) : t = s := eq_of_reaches_of_step_self hstep ht
  refine ⟨hstep, hreach, fun t ht => ?_⟩
  rw [hreach t ht, hrun]
  decide

/-! ## DIV by zero (R140, R201) -/

theorem exec_div_of_eq_zero {s : State} {ra rb : Reg} (hext : s.cfg.extAlu = true) (ha : Readable s ra)
    (hb : Readable s rb) (h0 : val s rb = 0) :
    exec (.div ra rb) s = .next (s.raise (some 0xA3#8) (.divideByZero rb)) := by
  have hi : IsAluTwo 0xA3#8 .div := {}
  exact hi.exec_of_alu_error ha hb (by rw [hext]; exact alu_div_of_eq_zero rb h0)

/-- Settles O57: the fault's info is the one that the configuration chooses. -/
theorem divideByZeroInfo : Obligations.DivideByZeroInfo := by
  intro ra rb s hrun hext hbytes ha hb h0
  have hw : (Instr.div ra rb).wellFormed s.cfg.extAlu = true := hext
  have hstep := (step_of_bytesAtPc hrun hw hbytes).trans (exec_div_of_eq_zero hext ha hb h0)
  refine ⟨_, hstep, ?only, rfl, fun hd => ?pc, fun hd => ?index⟩
  case only => rw [hstep]; exact onlyFaults_raise s _ (.divideByZero rb)
  case pc => rw [State.raise_fault, hd]; rfl
  case index => rw [State.raise_fault, hd]; rfl

end Sys2Proof.Machine
end

section
/-! PROOFS. The host's reading of faults and final states (60_exceptions.md sections 1 and 3). -/

namespace Sys2Proof.Machine

/-- Settles O17: one equation for each cause. -/
theorem faultCodes : Obligations.FaultCodes :=
  ⟨rfl, fun _ _ _ _ _ => ⟨⟨rfl, rfl⟩, ⟨rfl, rfl⟩, ⟨rfl, rfl⟩, ⟨rfl, rfl⟩, ⟨rfl, rfl, rfl⟩, ⟨rfl, rfl⟩, rfl, rfl⟩⟩

theorem State.exitStatus_halted {s : State} (h : s.runState = .halted) : s.exitStatus = some 0 := by
  rw [State.exitStatus, h]

theorem State.exitStatus_faulted {s : State} (h : s.runState = .faulted) : s.exitStatus = some 1 := by
  rw [State.exitStatus, h]

theorem State.exitStatus_running {s : State} (h : s.runState = .running) : s.exitStatus = none := by
  rw [State.exitStatus, h]

theorem State.diagnostic_faulted {s : State} (h : s.runState = .faulted) : s.diagnostic = some s.fault.message := by
  rw [State.diagnostic, h]

theorem FaultRecord.message_unknownOpcode {f : FaultRecord} {op : Byte} (hc : f.cause = .unknownOpcode)
    (hi : f.info = .opcode op) :
    f.message = "Unknown opcode ".toList ++ binary8 op ++ " at address ".toList ++ Nat.toDigits 10 f.pc.toNat := by
  rw [FaultRecord.message, FaultRecord.subject, hc, hi, decimal]

/-- Settles O56: the run state decides the status, and the record the message. -/
theorem hostReadsTheFinalState : Obligations.HostReadsTheFinalState := by
  refine ⟨fun s => ⟨State.exitStatus_halted, State.exitStatus_faulted, State.exitStatus_running⟩, fun _ => rfl, rfl,
    fun s op => ?message⟩
  case message =>
    rw [State.diagnostic_faulted (State.raise_runState s _ _)]
    exact congrArg some (FaultRecord.message_unknownOpcode rfl rfl)

end Sys2Proof.Machine
end

section
/-! PROOFS. The program file (70_reset_and_hazards.md section 2): a file of 8-digit lines loads as its bytes. -/

namespace Sys2Proof.Machine

/-! ## Lines (R237) -/

theorem splitLines_ne_nil (t : Text) : splitLines t ≠ [] := by
  cases t with
  | nil => exact List.cons_ne_nil _ _
  | cons c cs =>
    rw [splitLines]
    split
    · exact List.cons_ne_nil _ _
    · split <;> exact List.cons_ne_nil _ _

theorem splitLines_newline (rest : Text) : splitLines ('\n' :: rest) = [] :: splitLines rest := by
  obtain ⟨l, ls, h⟩ := List.exists_cons_of_ne_nil (splitLines_ne_nil rest)
  rw [splitLines, h]
  rfl

/-- Text with no line feed, up to the next one, is a line. -/
theorem splitLines_line {line : Text} (h : '\n' ∉ line) (rest : Text) :
    splitLines (line ++ '\n' :: rest) = line :: splitLines rest := by
  induction line with
  | nil => exact splitLines_newline rest
  | cons c cs ih =>
    have hc : c ≠ '\n' := (List.ne_of_not_mem_cons h).symm
    rw [List.cons_append, splitLines, ih (List.not_mem_of_not_mem_cons h)]
    exact if_neg hc

/-! ## Binary literals (R237) -/

/-- A non-empty text of the digits 0 and 1. -/
structure IsDigits (t : Text) : Prop where
  ne_nil : t ≠ []
  digit : ∀ c ∈ t, c = '0' ∨ c = '1'

section
variable {t : Text} (h : IsDigits t)
include h

theorem IsDigits.reverse : IsDigits t.reverse :=
  ⟨List.reverse_ne_nil_iff.2 h.ne_nil, fun c hc => h.digit c (List.mem_reverse.1 hc)⟩

theorem IsDigits.not_mem {c : Char} (h0 : c ≠ '0') (h1 : c ≠ '1') : c ∉ t := fun hc =>
  (h.digit c hc).elim h0 h1

theorem IsDigits.dropWhile_isWhitespace : t.dropWhile Char.isWhitespace = t := by
  obtain ⟨hne, hd⟩ := h
  cases t with
  | nil => exact absurd rfl hne
  | cons c cs =>
    have hc : Char.isWhitespace c = false := by
      rcases hd c List.mem_cons_self with rfl | rfl <;> decide
    rw [List.dropWhile_cons, hc, if_neg Bool.false_ne_true]

theorem IsDigits.strip_eq : strip t = t := by
  rw [strip, h.dropWhile_isWhitespace, h.reverse.dropWhile_isWhitespace, List.reverse_reverse]

theorem IsDigits.literalOf_eq : literalOf t = t := by
  have htake : t.takeWhile (· ≠ '#') = t := by
    refine List.takeWhile_eq_self_iff.2 fun c hc => decide_eq_true ?_
    rintro rfl
    exact h.not_mem (by decide) (by decide) hc
  rw [literalOf, htake, h.strip_eq]

theorem IsDigits.isBinaryLiteral_eq : isBinaryLiteral t = true := by
  obtain ⟨hne, hd⟩ := h
  simpa [isBinaryLiteral, hne] using hd

/-- A line of digits whose value fits in a byte is that byte. -/
theorem IsDigits.parseLine_eq (hv : binaryValue t ≤ 255) : parseLine t = .byte (BitVec.ofNat 8 (binaryValue t)) := by
  rw [parseLine, h.strip_eq]
  split
  · exact absurd rfl h.ne_nil
  · exact absurd List.mem_cons_self (h.not_mem (by decide) (by decide))
  · simp only [h.literalOf_eq, h.isBinaryLiteral_eq, hv, decide_true, Bool.and_self, if_true]

end

/-! ## A byte as 8 digits -/

theorem isDigits_binary8 (b : Byte) : IsDigits (binary8 b) := by
  refine ⟨List.cons_ne_nil _ _, fun c hc => ?_⟩
  obtain ⟨k, -, rfl⟩ := List.mem_map.1 hc
  split
  · exact .inr rfl
  · exact .inl rfl

/-- The value of the digit of bit `k` is the bit. -/
theorem digitValue_getLsbD (b : Byte) (k : Nat) :
    (if (if b.getLsbD k then '1' else '0') = '1' then 1 else 0) = b.toNat / 2 ^ k % 2 := by
  rw [BitVec.getLsbD, Nat.testBit_eq_decide_div_mod_eq]
  rcases Nat.mod_two_eq_zero_or_one (b.toNat / 2 ^ k) with e | e <;> simp [e]

/-- One more binary digit of `n`: when those above bit `k` are worth `n / 2 ^ (k + 1)`, with bit `k` they are worth
`n / 2 ^ k`. -/
theorem two_mul_add_digit (n k : Nat) : 2 * (n / 2 ^ (k + 1)) + n / 2 ^ k % 2 = n / 2 ^ k := by
  rw [pow_succ, ← Nat.div_div_eq_div_mul, Nat.div_add_mod]

theorem binaryValue_binary8 (b : Byte) : binaryValue (binary8 b) = b.toNat := by
  have h8 : 2 * 0 = 2 * (b.toNat / 2 ^ (7 + 1)) := congrArg (2 * ·) (Nat.div_eq_of_lt b.isLt).symm
  simp only [binaryValue, binary8, List.map_cons, List.map_nil, List.foldl_cons, List.foldl_nil, digitValue_getLsbD]
  rw [h8, two_mul_add_digit _ 7, two_mul_add_digit _ 6, two_mul_add_digit _ 5, two_mul_add_digit _ 4,
    two_mul_add_digit _ 3, two_mul_add_digit _ 2, two_mul_add_digit _ 1, two_mul_add_digit _ 0]
  exact Nat.div_one _

theorem parseLine_binary8 (b : Byte) : parseLine (binary8 b) = .byte b := by
  have hv := binaryValue_binary8 b
  rw [(isDigits_binary8 b).parseLine_eq (by have := b.isLt; omega), hv, BitVec.ofNat_toNat, BitVec.setWidth_eq]

/-! ## The file of a list of bytes -/

theorem splitLines_bytes (bytes : List Byte) :
    splitLines (bytes.flatMap fun b => binary8 b ++ ['\n']) = bytes.map binary8 ++ [[]] := by
  induction bytes with
  | nil => rfl
  | cons b bs ih =>
    rw [List.flatMap_cons, List.append_assoc, List.singleton_append,
      splitLines_line ((isDigits_binary8 b).not_mem (by decide) (by decide)), ih, List.map_cons, List.cons_append]

theorem parseLines_byte_of_room {line : Text} {b : Byte} (h : parseLine line = .byte b) (room : Nat)
    (rest : List Text) : parseLines (room + 1) (line :: rest) = (b :: ·) <$> parseLines room rest := by
  simp only [parseLines, h]
  cases parseLines room rest <;> rfl

theorem parseLines_byte_of_no_room {line : Text} {b : Byte} (h : parseLine line = .byte b) (rest : List Text) :
    parseLines 0 (line :: rest) = .error (.malformedProgram (literalOf (strip line))) := by
  simp only [parseLines, h]

/-- The empty last line is skipped. -/
theorem parseLines_empty_line (room : Nat) : parseLines room [[]] = .ok [] := by
  have h : parseLine [] = .skip := rfl
  simp only [parseLines, h]

theorem parseLines_of_fits {bytes : List Byte} {room : Nat} (h : bytes.length ≤ room) :
    parseLines room (bytes.map binary8 ++ [[]]) = .ok bytes := by
  induction bytes generalizing room with
  | nil => exact parseLines_empty_line room
  | cons b bs ih =>
    cases room with
    | zero => exact absurd h (Nat.not_succ_le_zero _)
    | succ room =>
      rw [List.map_cons, List.cons_append, parseLines_byte_of_room (parseLine_binary8 b),
        ih (Nat.le_of_succ_le_succ h)]
      rfl

theorem parseLines_of_not_fits {bytes : List Byte} {room : Nat} (h : room < bytes.length) :
    ∃ lit, parseLines room (bytes.map binary8 ++ [[]]) = .error (.malformedProgram lit) := by
  induction bytes generalizing room with
  | nil => exact absurd h (Nat.not_lt_zero _)
  | cons b bs ih =>
    cases room with
    | zero => exact ⟨_, parseLines_byte_of_no_room (parseLine_binary8 b) _⟩
    | succ room =>
      obtain ⟨lit, hlit⟩ := ih (Nat.lt_of_succ_lt_succ h)
      refine ⟨lit, ?_⟩
      rw [List.map_cons, List.cons_append, parseLines_byte_of_room (parseLine_binary8 b), hlit]
      rfl

/-- Settles O22: each line is a byte's 8 digits, and there is room for 256 of them. -/
theorem programFileLoadsItsBytes : Obligations.ProgramFileLoadsItsBytes := by
  intro bytes
  rw [parseProgram, splitLines_bytes]
  exact ⟨parseLines_of_fits, parseLines_of_not_fits⟩

end Sys2Proof.Machine
end
